-- ==== Sys2Proof/Word.lean ====
section
/-! DEFINITION. The widths the core works in: the 8-bit field element (R5, R8), the 9-bit result (R23) and the
32-bit bus word (R42, R60). Every value of the core is unsigned (R9). -/

namespace Sys2Proof

/-- A field element, a table entry or a table index: 8 bits, unsigned (R5, R8, R27). -/
abbrev Byte := BitVec 8

/-- The value part of `RESULT`: 9 bits, since a DU result can be 256 (R23, R143). -/
abbrev Nine := BitVec 9

/-- A bus word, a command word or a whole register: 32 bits (R42, R60). -/
abbrev Word := BitVec 32

/-- All 256 bytes, in ascending order: the range of the spec's loops `for x in 0..255`. -/
def allBytes : List Byte := (List.range 256).map (BitVec.ofNat 8)

/-- The bytes 1..255, in ascending order: the nonzero field elements (R102) and the input differences of DU (R144). -/
def nonzeroBytes : List Byte := (List.range 255).map fun k => BitVec.ofNat 8 (k + 1)

end Sys2Proof
end

