-- ==== Sys2Proof/Config.lean ====
section
/-! DEFINITION. The free values of the spec: `draw(8)` and `draw(9)` of R10. Each is a constant without a body, read
at a counter that the step advances, so that nothing says what a draw is and no two draws are related. -/

namespace Sys2Proof

/-- `draw(8)` (R10, U1, U2, U3): the byte that the draw number `n` of a run gives.
Used by a host read of an unwritten `TABLE` entry and of any entry while `GEN` or `DU` is in flight (R45). Log entry 2. -/
opaque Config.drawByte : Nat → Byte

/-- `draw(9)` (R10, U4): the 9-bit value that the draw number `n` of a run gives.
Used by `DU` over a `TABLE` with an unwritten entry (R147). Log entry 2. -/
opaque Config.drawNine : Nat → Nine

end Sys2Proof
end

