-- ==== Sys2Proof/Syntax.lean ====
section
/-! DEFINITION. The commands of the core: one constructor for each row of spec/opcode_table.json (R62, R64), and the
lines of its assembly language with the three pseudo-instructions (R70, R71). -/

namespace Sys2Proof

/-- The inversion method that the `METH` field of `INV` and `GEN` selects (R64). -/
inductive Method where
  | scan
  | eea
  | fermat
deriving DecidableEq, Repr

/-- A command of format C (R61). Every constructor holds both operand bytes `a` (bits 15:8) and `b` (bits 23:16) of its
word. A command ignores the bytes that its row of R62 does not use, but `LASTCMD` keeps them (R66), so the term does too. -/
inductive Instr where
  /-- `NOP` (R88); ignores `a` and `b`. -/
  | nop (a b : Byte)
  /-- `MUL a, b` (R92). -/
  | mul (a b : Byte)
  /-- `INV.SCAN a` (R109); ignores `b`. -/
  | invScan (a b : Byte)
  /-- `INV.EEA a` (R110); ignores `b`. -/
  | invEea (a b : Byte)
  /-- `INV.FERMAT a` (R111); ignores `b`. -/
  | invFermat (a b : Byte)
  /-- `AFF a` (R123); ignores `b`. -/
  | aff (a b : Byte)
  /-- `SBOX a` (R132); ignores `b`. -/
  | sbox (a b : Byte)
  /-- `GEN.SCAN` (R135); ignores `a` and `b`. -/
  | genScan (a b : Byte)
  /-- `GEN.EEA` (R136); ignores `a` and `b`. -/
  | genEea (a b : Byte)
  /-- `GEN.FERMAT` (R137); ignores `a` and `b`. -/
  | genFermat (a b : Byte)
  /-- `DU` (R147); ignores `a` and `b`. -/
  | du (a b : Byte)
deriving DecidableEq, Repr

/-- One line of the command assembly language (R70), its byte literals as the number written. The last three
constructors are the pseudo-instructions of R71. -/
inductive Asm where
  | nop
  | mul (a b : Nat)
  | invScan (a : Nat)
  | invEea (a : Nat)
  | invFermat (a : Nat)
  | aff (a : Nat)
  | sbox (a : Nat)
  | genScan
  | genEea
  | genFermat
  | du
  /-- `INV a` -/
  | inv (a : Nat)
  /-- `GEN` -/
  | gen
  /-- `SQR a` -/
  | sqr (a : Nat)
deriving DecidableEq, Repr

end Sys2Proof
end

