-- ==== Sys2Proof/WellFormed.lean ====
section
/-! DEFINITION. Which terms are well formed. A term of `Instr` has exactly the fields of format C at their widths
(R61), so every term of it is a command of the core; what can be ill formed is a line of assembly text (a literal that is
no byte, R70), and what can fail to be in the assembler's form is a command with a nonzero ignored field (R66, R70). -/

namespace Sys2Proof

/-- R70: a literal of the assembly language is a byte, 0 to 255. -/
def byteLiteral (n : Nat) : Bool := decide (n < 256)

/-- A line of assembly is well formed when each of its literals is a byte (R70). -/
def Asm.wf : Asm → Bool
  | .nop | .genScan | .genEea | .genFermat | .du | .gen => true
  | .mul a b => byteLiteral a && byteLiteral b
  | .invScan a | .invEea a | .invFermat a | .aff a | .sbox a | .inv a | .sqr a => byteLiteral a

/-- A command is in the assembler's form when every field it ignores is 0 (R66, R70). The core runs every command, in this
form or not. -/
def Instr.canonical : Instr → Bool
  | .mul _ _ => true
  | .invScan _ b | .invEea _ b | .invFermat _ b | .aff _ b | .sbox _ b => b == 0
  | .nop a b | .genScan a b | .genEea a b | .genFermat a b | .du a b => a == 0 && b == 0

end Sys2Proof
end

