-- ==== Sys2Proof/Decode.lean ====
section
/-! DEFINITION. The command encoding of spec/30_encoding.md: the fields of a word, legality, the decoder (total on every
word and on every list of bytes, rejecting by name), the encoder and the assembler. -/

namespace Sys2Proof

/-! ### The fields of format C (R61) -/

/-- `OP`, bits 3:0. -/
def opField (w : Word) : BitVec 4 := w.extractLsb' 0 4
/-- `METH`, bits 5:4. -/
def methField (w : Word) : BitVec 2 := w.extractLsb' 4 2
/-- `RSV0`, bits 7:6. -/
def rsv0Field (w : Word) : BitVec 2 := w.extractLsb' 6 2
/-- `A`, bits 15:8. -/
def aField (w : Word) : Byte := w.extractLsb' 8 8
/-- `B`, bits 23:16. -/
def bField (w : Word) : Byte := w.extractLsb' 16 8
/-- `RSV1`, bits 31:24. -/
def rsv1Field (w : Word) : Byte := w.extractLsb' 24 8

/-! ### Legality (R67) -/

/-- The legality predicate of R67, total on every 32-bit word. -/
def legal (w : Word) : Bool :=
  rsv1Field w == 0 && rsv0Field w == 0 &&
    ((decide (opField w ∈ [0x2#4, 0x5#4]) && decide (methField w ∈ [0#2, 1#2, 2#2])) ||
      (decide (opField w ∈ [0x0#4, 0x1#4, 0x3#4, 0x4#4, 0x6#4]) && methField w == 0))

/-- The eleven values that `w & 0xFF0000FF` takes on the legal words: the `match` column of the opcode table (R67). -/
def legalMatches : List Word :=
  [0x00, 0x01, 0x02, 0x12, 0x22, 0x03, 0x04, 0x05, 0x15, 0x25, 0x06]

/-- The mask of every row of the opcode table (R67). -/
def legalMask : Word := 0xFF0000FF

/-! ### The decoder -/

/-- Why a word, or a list of bytes, is no command. -/
inductive DecodeError where
  /-- Fewer than the four bytes of a command word (R60). -/
  | truncated
  /-- `RSV0` or `RSV1` is not 0 (R63). -/
  | reservedBits
  /-- `OP` is 0x7 to 0xF (R68). -/
  | reservedOp
  /-- `METH` is 3 on `INV` or `GEN`, or not 0 on another command (R65). -/
  | illegalMethod
deriving DecidableEq, Repr

/-- A command whose `METH` must be 0 (R65). -/
def decodePlain (meth : BitVec 2) (i : Instr) : Except DecodeError Instr :=
  if meth = 0 then .ok i else .error .illegalMethod

/-- A command that `METH` selects one of three of (R64, R65). -/
def decodeByMethod (meth : BitVec 2) (scan eea fermat : Instr) : Except DecodeError Instr :=
  if meth = 0 then .ok scan else if meth = 1 then .ok eea else if meth = 2 then .ok fermat
  else .error .illegalMethod

/-- The opcode map of R62, of a word whose reserved bits are 0. -/
def decodeFields (op : BitVec 4) (meth : BitVec 2) (a b : Byte) : Except DecodeError Instr :=
  match op.toNat with
  | 0x0 => decodePlain meth (.nop a b)
  | 0x1 => decodePlain meth (.mul a b)
  | 0x2 => decodeByMethod meth (.invScan a b) (.invEea a b) (.invFermat a b)
  | 0x3 => decodePlain meth (.aff a b)
  | 0x4 => decodePlain meth (.sbox a b)
  | 0x5 => decodeByMethod meth (.genScan a b) (.genEea a b) (.genFermat a b)
  | 0x6 => decodePlain meth (.du a b)
  | _ => .error .reservedOp

/-- The decoder, total on every 32-bit word: the command of the word, or the reason it is ILLEGAL (R62 to R68). -/
def decodeWord (w : Word) : Except DecodeError Instr :=
  if rsv1Field w = 0 ∧ rsv0Field w = 0 then
    decodeFields (opField w) (methField w) (aField w) (bField w)
  else .error .reservedBits

/-! ### Words as bytes (R43) -/

/-- The word of four byte lanes, lane 0 first: the core is little-endian (R43). -/
def wordOfLanes (b0 b1 b2 b3 : Byte) : Word := b3 ++ b2 ++ b1 ++ b0

/-- Byte lane `k` of a word: bits `8k+7 : 8k` (R43). -/
def laneOf (w : Word) (k : Nat) : Byte := w.extractLsb' (8 * k) 8

/-- The four bytes of a word in address order (R43). -/
def wordBytes (w : Word) : List Byte := [laneOf w 0, laneOf w 1, laneOf w 2, laneOf w 3]

/-- The decoder on bytes: the first command word and the bytes after it. There is no other length (R60). -/
def decodeBytes : List Byte → Except DecodeError (Instr × List Byte)
  | b0 :: b1 :: b2 :: b3 :: rest =>
    match decodeWord (wordOfLanes b0 b1 b2 b3) with
    | .ok i => .ok (i, rest)
    | .error e => .error e
  | _ => .error .truncated

/-- The command that the decoder reads from an opcode-table word of `nbits` bits. -/
def decodeTableWord (nbits w : Nat) : Option Instr :=
  match decodeBytes (wordBytes (BitVec.ofNat 32 (w % 2 ^ nbits))) with
  | .ok (i, _) => some i
  | .error _ => none

/-! ### The encoder -/

/-- `b << 16 | a << 8 | low`, the shape of every word of R70. -/
def commandWord (b a low : Byte) : Word :=
  b.setWidth 32 <<< 16 ||| a.setWidth 32 <<< 8 ||| low.setWidth 32

/-- The word of a command, from the table of R70 with the bytes it ignores kept (R66). -/
def encode : Instr → Word
  | .nop a b => commandWord b a 0x00
  | .mul a b => commandWord b a 0x01
  | .invScan a b => commandWord b a 0x02
  | .invEea a b => commandWord b a 0x12
  | .invFermat a b => commandWord b a 0x22
  | .aff a b => commandWord b a 0x03
  | .sbox a b => commandWord b a 0x04
  | .genScan a b => commandWord b a 0x05
  | .genEea a b => commandWord b a 0x15
  | .genFermat a b => commandWord b a 0x25
  | .du a b => commandWord b a 0x06

/-! ### The assembler -/

/-- R71: a pseudo-instruction is replaced by its expansion; any other line stands. -/
def expandPseudo : Asm → Asm
  | .inv a => .invScan a
  | .gen => .genScan
  | .sqr a => .mul a a
  | line => line

/-- The command of a well-formed line that is no pseudo-instruction, 0 in the fields it ignores (R70). -/
def assembleCore : Asm → Option Instr
  | .nop => some (.nop 0 0)
  | .mul a b => some (.mul (BitVec.ofNat 8 a) (BitVec.ofNat 8 b))
  | .invScan a => some (.invScan (BitVec.ofNat 8 a) 0)
  | .invEea a => some (.invEea (BitVec.ofNat 8 a) 0)
  | .invFermat a => some (.invFermat (BitVec.ofNat 8 a) 0)
  | .aff a => some (.aff (BitVec.ofNat 8 a) 0)
  | .sbox a => some (.sbox (BitVec.ofNat 8 a) 0)
  | .genScan => some (.genScan 0 0)
  | .genEea => some (.genEea 0 0)
  | .genFermat => some (.genFermat 0 0)
  | .du => some (.du 0 0)
  | .inv _ | .gen | .sqr _ => none

/-- The assembler (R70, R71): the command of a line, none for a line with a literal that is no byte. -/
def assemble (line : Asm) : Option Instr :=
  if line.wf then assembleCore (expandPseudo line) else none

end Sys2Proof
end

