-- ==== Sys2Proof/Machine/State.lean ====
section
/-! DEFINITION. The state of the machine (R20), what can happen to it next (the host's transactions, the engine's turn,
reset: R11, R12, R180), and the reasons a step can stop. State is plain data. -/

namespace Sys2Proof.Machine

/-! ### What the outside world does -/

/-- The width of a bus access. Only 32 bits is admitted (R42). -/
inductive Width where
  | bits8
  | bits16
  | bits32
deriving DecidableEq, Repr

/-- What a bus access does: `MemRead`, or `MemWrite` with its data (R10). -/
inductive Transfer where
  | read
  | write (data : Word)
deriving DecidableEq, Repr

/-- One host bus transaction: a byte address of the bus, a width, and a read or a write (R10, R40, R42). -/
structure Access where
  addr : Nat
  width : Width
  transfer : Transfer
deriving DecidableEq, Repr

/-- What happens next. The list of events in State is the order that R48 speaks of: host accesses, the points at which
the engine gets its turn (R12, R83: anywhere between host steps), and resets. Every interleaving is such a list. -/
inductive Event where
  /-- The host performs this bus transaction (R44). -/
  | access (a : Access)
  /-- The engine takes its step, if it has one (R83). -/
  | engine
  /-- `rst` is high at a rising clock edge (R180). -/
  | reset
  /-- A host access in the same cycle as reset, which R183 does not admit. -/
  | accessDuringReset (a : Access)
  /-- An access of a second bus master, which R54 does not admit. -/
  | secondMaster (a : Access)
deriving DecidableEq, Repr

/-! ### The state -/

/-- The fields of `STATUS` (R22). Its reserved bits 7:3 and 31:11 are always 0 and are not stored. -/
structure Status where
  /-- bit 0: a command is in flight -/
  busy : Bool
  /-- bit 1: the last command completed normally -/
  done : Bool
  /-- bit 2, sticky: an inversion self-check failed -/
  fatal : Bool
  /-- bits 10:8: the last error code since acceptance or reset (R161, R162) -/
  err : BitVec 3
deriving DecidableEq, Repr

/-- The state of the core (R20), then the model's own four fields. `ID` and `SROM` are constants (R24, R28), and the
histogram is not part of the state (R30). -/
structure State where
  /-- `LASTCMD`: the last accepted command word (R21). -/
  lastcmd : Word
  /-- `STATUS` (R22). -/
  status : Status
  /-- `RESULT`, bits 8:0; bits 31:9 are always 0 (R23). -/
  result : Nine
  /-- `IFL`: the in-flight command latch (R29). -/
  ifl : Word
  /-- `TABLE` with `WR` (R27, R31): the written entries as (index, byte), indices rising. An index is listed exactly when
  its `WR` flag is true; an entry that is not listed holds no value the model knows, and a read of it is a draw (R45). -/
  table : List Host.Cell
  /-- The parameter `BASE` of R6, in units of 4 KiB: `BASE = 4096 * basePage` (R40). No step writes it. -/
  basePage : Nat
  /-- The model's own: how many draws have been taken. The next draw is the free value at this number. -/
  draws : Nat
  /-- The model's own: the values that the host's reads returned, newest first (R193). -/
  readLog : List Word
  /-- The model's own: what happens next, first event first (R11, R12, R48). -/
  events : List Event
deriving DecidableEq, Repr

/-- Why the machine stops with a fault. -/
inductive Fault where
  /-- Raised by the engine's step when `BUSY` is 1 and `IFL` holds no legal command. No step of the model from a state that
  meets the invariant comes there, since only legal words are latched (R80, R82): a stuck state, safe. -/
  | latchHoldsNoCommand
deriving DecidableEq, Repr

/-- Why the model gives a step no meaning. -/
inductive Refusal where
  /-- An instruction without a meaning in the model; no arm answers this now. Safe. -/
  | notModelled (mnemonic : String)
  /-- Raised by a host access to the window that is not an aligned 32-bit access: "The model gives such an access no step"
  (R42, `SUBWORD_BEHAVIOUR` of R6, U6). Safe. -/
  | accessNotAdmitted
  /-- Raised by a host access in the same cycle as reset, "not admitted by the model" (R183, U16). Safe. -/
  | accessDuringReset
  /-- Raised by an access of a second bus master, "not admitted by this spec" (R54, U8). Safe. -/
  | secondMaster
deriving DecidableEq, Repr

/-- `STATUS` after reset (R22, R180): all fields 0. -/
def Status.reset : Status :=
  { busy := false, done := false, fatal := false, err := 0 }

/-- The machine right after reset (R180). `IFL` is "don't care" there and the model says 0 (log entry 1). The last
four values are the model's own (log entries 2, 3, 4 and 5): nothing has been drawn, nothing read, and no event is due. -/
def State.reset : State :=
  { lastcmd := 0
    status := Status.reset
    result := 0
    ifl := 0
    table := []
    basePage := 0
    draws := 0
    readLog := []
    events := [] }

end Sys2Proof.Machine
end

