-- ==== Sys2Proof/Machine/Flags.lean ====
section
/-! DEFINITION. `STATUS` (R22): the word a host reads, the error codes (R161), and what acceptance, an error, completion
and abort do to its fields. No command sets any other flag. -/

namespace Sys2Proof.Machine

/-! ### The error codes of R161 -/

/-- No error since the last acceptance or reset. -/
def errNone : BitVec 3 := 0
/-- A `CMD` write of a word that is not legal. -/
def errIllegal : BitVec 3 := 1
/-- A `CMD` write while `BUSY = 1`. -/
def errCmdBusy : BitVec 3 := 2
/-- A `TABLE` write while `BUSY = 1`. -/
def errTblBusy : BitVec 3 := 3
/-- A `CMD` write while `FATAL = 1`. -/
def errHalted : BitVec 3 := 4

/-! ### The register as read -/

/-- The word read at `STATUS`: `ERR << 8 | FATAL << 2 | DONE << 1 | BUSY` (R45). -/
def Status.word (st : Status) : Word :=
  st.err.setWidth 32 <<< 8 ||| (BitVec.ofBool st.fatal).setWidth 32 <<< 2
    ||| (BitVec.ofBool st.done).setWidth 32 <<< 1 ||| (BitVec.ofBool st.busy).setWidth 32

/-! ### The four events that write it -/

/-- An error event records its code over the previous one and does nothing else (R161, R162, R164). -/
def Status.raise (code : BitVec 3) (st : Status) : Status := { st with err := code }

/-- Acceptance (R82): `BUSY <- 1`, `DONE <- 0`, `ERR <- 0`. -/
def Status.accepted (st : Status) : Status := { st with busy := true, done := false, err := errNone }

/-- Normal completion (R84): `BUSY <- 0`, `DONE <- 1`; `ERR` is not changed. -/
def Status.completed (st : Status) : Status := { st with busy := false, done := true }

/-- Abort (R166): `FATAL <- 1`, `BUSY <- 0`, `DONE <- 0`; `ERR` is not changed. -/
def Status.aborted (st : Status) : Status := { st with fatal := true, busy := false, done := false }

end Sys2Proof.Machine
end

