-- ==== Sys2Proof/Machine/Memory.lean ====
section
/-! DEFINITION. The table RAM (R27) with its written flags (R31), as a list of (index, byte) pairs with the indices
rising. Listed means written. What an unlisted index reads as is no value at all: the reader takes a draw (R45). -/

namespace Sys2Proof.Machine

/-- The canonical form: indices strictly rising, each in 0..255. An unlisted index has no fixed value, so no entry can
equal one. -/
abbrev Memory.wf (t : List Host.Cell) : Prop :=
  t.Pairwise (fun c d => c.1 < d.1) ∧ ∀ c ∈ t, c.1 < 256

/-- `TABLE[i]` where `WR[i]` is true, none where it is false. -/
def Memory.read : List Host.Cell → Nat → Option Byte
  | [], _ => none
  | (j, v) :: rest, i => if j = i then some v else Memory.read rest i

/-- `TABLE[i] <- v; WR[i] <- true` (R46). -/
def Memory.write : List Host.Cell → Nat → Byte → List Host.Cell
  | [], i, v => [(i, v)]
  | (j, u) :: rest, i, v =>
    if i < j then (i, v) :: (j, u) :: rest
    else if i = j then (i, v) :: rest
    else (j, u) :: Memory.write rest i v

/-- `WR[i]` (R31). -/
def Memory.written (t : List Host.Cell) (i : Byte) : Bool := (Memory.read t i.toNat).isSome

/-- `WR[i] = true for every i in 0..255` (R147). -/
def Memory.allWritten (t : List Host.Cell) : Bool := allBytes.all (Memory.written t)

/-- All 256 entries written, entry `x` with `f x` (R84 for `GEN`). -/
def Memory.ofFn (f : Byte → Byte) : List Host.Cell := allBytes.map fun x => (x.toNat, f x)

/-- A table whose every entry is written, as a function of its index: the `T` of R140. Only asked of a table with every
`WR` flag true (R147), where the 0 is not reached. -/
def Memory.toFn (t : List Host.Cell) (x : Byte) : Byte := (Memory.read t x.toNat).getD 0

end Sys2Proof.Machine
end

