-- ==== Sys2Proof/Machine/Operands.lean ====
section
/-! DEFINITION. How operands and addresses are formed: the zero extensions of R9 and R23, the classes of operation that
the window's rules ask about, and the decoding of a bus address into a register of the window (R40 to R42). -/

namespace Sys2Proof.Machine

/-! ### Widths -/

/-- `zext_9`: how a byte is stored in `RESULT` (R23). -/
def zext9 (v : Byte) : Nine := v.setWidth 9

/-- `RESULT` as read: bits 31:9 are 0 (R23, R45). -/
def resultWord (v : Nine) : Word := v.setWidth 32

/-- `zext_32` of a table byte: bits 31:8 of a `TABLE` read are 0 (R27, R45). -/
def tableWord (v : Byte) : Word := v.setWidth 32

/-- The byte that a `TABLE` write stores: `w[7:0]`; `w[31:8]` is ignored (R27, R46). -/
def tableData (w : Word) : Byte := w.setWidth 8

/-! ### Operations that use the table RAM -/

/-- `IFL.OP in {GEN, DU}`: while such a command is in flight, a `TABLE` read is a draw (R45). -/
def usesTable (w : Word) : Bool := opField w == 0x5 || opField w == 0x6

/-! ### The window -/

/-- The value of `ID` (R24). -/
def idValue : Word := 0x47463807

/-- `BASE` (R6, R40), 4 KiB aligned. -/
def baseAddress (basePage : Nat) : Nat := 4096 * basePage

/-- The offset of a byte address in the window, none outside it (R40). -/
def windowOffset (basePage addr : Nat) : Option (BitVec 12) :=
  if baseAddress basePage ≤ addr ∧ addr < baseAddress basePage + 0x1000 then
    some (BitVec.ofNat 12 (addr - baseAddress basePage))
  else none

/-- R42: an access is admitted when it is 32 bits wide and its offset is a multiple of 4. -/
def admitted (width : Width) (off : BitVec 12) : Bool :=
  decide (width = .bits32) && off.extractLsb' 0 2 == 0

/-- What an offset of the window names (R41). -/
inductive Reg where
  | cmd
  | status
  | result
  | id
  | table (i : Byte)
  | reserved
deriving DecidableEq, Repr

/-- The map of the window (R41), for the offset of an admitted access. `TABLE[i]` is at `0x400 + 4*i` (R27). -/
def regAt (off : BitVec 12) : Reg :=
  if off = 0x000#12 then .cmd
  else if off = 0x004#12 then .status
  else if off = 0x008#12 then .result
  else if off = 0x00C#12 then .id
  else if 0x400 ≤ off.toNat ∧ off.toNat ≤ 0x7FC then
    .table (((off - 0x400#12) >>> 2).setWidth 8)
  else .reserved

/-! ### The host's accesses by name (R72) -/

/-- An aligned 32-bit read at an offset of the window. -/
def readAt (basePage : Nat) (off : Nat) : Access :=
  { addr := baseAddress basePage + off, width := .bits32, transfer := .read }

/-- An aligned 32-bit write at an offset of the window. -/
def writeAt (basePage : Nat) (off : Nat) (w : Word) : Access :=
  { addr := baseAddress basePage + off, width := .bits32, transfer := .write w }

/-- `ISSUE <cmd>`: a write of the command's word to `CMD`. -/
def issue (basePage : Nat) (w : Word) : Access := writeAt basePage 0x000 w

/-- `TW i, v`: a write of `TABLE[i]`. -/
def tableWrite (basePage : Nat) (i : Byte) (v : Word) : Access :=
  writeAt basePage (0x400 + 4 * i.toNat) v

/-- `TR i -> v`: a read of `TABLE[i]`. -/
def tableRead (basePage : Nat) (i : Byte) : Access :=
  readAt basePage (0x400 + 4 * i.toNat)

end Sys2Proof.Machine
end

