-- ==== Sys2Proof/Machine/Ops.lean ====
section
/-! DEFINITION. The named operations over the state: draws, errors, acceptance and rejection of a command (R80 to R82),
completion and abort (R84, R166), the host's reads and writes (R45, R46) and reset (R180). -/

namespace Sys2Proof.Machine

/-! ### Draws (R10) -/

/-- `draw(8)`: the free byte of the next draw number. -/
def drawByte (s : State) : Byte × State :=
  (Config.drawByte s.draws, { s with draws := s.draws + 1 })

/-- `draw(9)`: the free 9-bit value of the next draw number. -/
def drawNine (s : State) : Nine × State :=
  (Config.drawNine s.draws, { s with draws := s.draws + 1 })

/-! ### Errors (R161 to R164) -/

/-- `raise Error(code)` (R10): the code is recorded in `STATUS.ERR`, and nothing else happens. -/
def raiseError (code : BitVec 3) (s : State) : State :=
  { s with status := s.status.raise code }

/-! ### Acceptance and rejection of a command -/

/-- The effects of acceptance, in one host step (R82). -/
def acceptCommand (w : Word) (s : State) : State :=
  { s with ifl := w, lastcmd := w, status := s.status.accepted }

/-- A host write of `w` to `CMD`: rejected with HALTED, CMD_BUSY or ILLEGAL, in that order, or else accepted
(R69, R80, R81, R163). -/
def presentCommand (w : Word) (s : State) : State :=
  if s.status.fatal then raiseError errHalted s
  else if s.status.busy then raiseError errCmdBusy s
  else if legal w then acceptCommand w s
  else raiseError errIllegal s

/-! ### Completion and abort -/

/-- What a command computes: the triple `(ok, res, tbl)` of R84. `res` is none for `NOP` and `GEN`, `tbl` is some table for
`GEN` alone. -/
structure CommandResult where
  ok : Bool
  res : Option Nine
  tbl : Option (List Host.Cell)
deriving DecidableEq, Repr

/-- `raise Fatal()` (R10): the abort of R166. If `IFL.OP = GEN`, every `TABLE` entry becomes unwritten; `RESULT`, `STATUS.ERR` and
`LASTCMD` are unchanged. -/
def abortCommand (s : State) : State :=
  { s with
    status := s.status.aborted
    table := if opField s.ifl = 0x5#4 then [] else s.table }

/-- The completion step of R84, one atomic update: abort if `ok` is false, else write the result and the table that the
command has, and set `DONE`. -/
def completeCommand (r : CommandResult) (s : State) : State :=
  if r.ok then
    { s with
      status := s.status.completed
      result := r.res.getD s.result
      table := r.tbl.getD s.table }
  else abortCommand s

/-! ### Host reads (R45) -/

/-- The byte that a read of `TABLE[i]` gives, with the draw it may take: a draw while `GEN` or `DU` is in flight, a draw of
an unwritten entry, else the entry. -/
def readTable (i : Byte) (s : State) : Byte × State :=
  if s.status.busy && usesTable s.ifl then drawByte s
  else
    match Memory.read s.table i.toNat with
    | some v => (v, s)
    | none => drawByte s

/-- The value of a register of the window as read, with the draw it may take (R45). -/
def readReg (r : Reg) (s : State) : Word × State :=
  match r with
  | .cmd => (s.lastcmd, s)
  | .status => (s.status.word, s)
  | .result => (resultWord s.result, s)
  | .id => (idValue, s)
  | .table i => (tableWord (readTable i s).1, (readTable i s).2)
  | .reserved => (0, s)

/-- The host takes the value its read returned (R193). Nothing of the core changes: a read has no side effect (R45). -/
def recordRead (v : Word) (s : State) : State := { s with readLog := v :: s.readLog }

/-- An admitted host read. -/
def hostRead (r : Reg) (s : State) : State := recordRead (readReg r s).1 (readReg r s).2

/-! ### Host writes (R46) -/

/-- A host write of `TABLE[i]`: dropped with TBL_BUSY while a command is in flight, else stored. -/
def writeTable (i : Byte) (w : Word) (s : State) : State :=
  if s.status.busy then raiseError errTblBusy s
  else { s with table := Memory.write s.table i.toNat (tableData w) }

/-- An admitted host write: only `CMD` and `TABLE` have an effect (R26, R46). -/
def hostWrite (r : Reg) (w : Word) (s : State) : State :=
  match r with
  | .cmd => presentCommand w s
  | .table i => writeTable i w s
  | .status | .result | .id | .reserved => s

/-! ### Host accesses -/

/-- An admitted access to the register at an offset (R44). -/
def accessReg (r : Reg) (t : Transfer) (s : State) : State :=
  match t with
  | .read => hostRead r s
  | .write w => hostWrite r w s

/-- One host bus transaction: no concern of the core outside the window (R40), refused where it is not admitted (R42), else
one atomic step (R44). -/
def hostAccess (a : Access) (s : State) : Host.Outcome State Fault Refusal :=
  match windowOffset s.basePage a.addr with
  | none => .next s
  | some off =>
    if admitted a.width off then .next (accessReg (regAt off) a.transfer s)
    else .refused .accessNotAdmitted

/-! ### Reset (R180 to R182) -/

/-- The state that reset leaves (R180): a command in flight is discarded (R182) and every `TABLE` entry counts as unwritten
(R181). `IFL` is "don't care" and takes its value of `State.reset` (log entry 1). The window's place, the draws taken, the
values the host has read and what happens next are no state of the core. -/
def applyReset (s : State) : State :=
  { s with
    lastcmd := 0
    status := Status.reset
    result := 0
    ifl := 0
    table := [] }

end Sys2Proof.Machine
end

