-- ==== Sys2Proof/Machine/Affine.lean ====
section
/-! DEFINITION. The affine unit: the transform of R120, the three other forms of R122, and `AFF` (R123). -/

namespace Sys2Proof.Machine

/-- `AFFC` = 0x63 (R5, R121). -/
def affc : Byte := 0x63

/-- Output bit `i` of R120: `x[i] ^ x[(i+4) mod 8] ^ x[(i+5) mod 8] ^ x[(i+6) mod 8] ^ x[(i+7) mod 8] ^ AFFC[i]`. -/
def affineBit (x : Byte) (i : Nat) : Bool :=
  x.getLsbD i ^^ x.getLsbD ((i + 4) % 8) ^^ x.getLsbD ((i + 5) % 8) ^^ x.getLsbD ((i + 6) % 8)
    ^^ x.getLsbD ((i + 7) % 8) ^^ affc.getLsbD i

/-- The byte whose bit `i` is `f i`, for `i` in 0..7. -/
def byteOfBits (f : Nat → Bool) : Byte :=
  (List.range 8).foldl (fun out i => out ||| (if f i then 1#8 <<< i else 0)) 0

/-- `affine(x)` (R120). -/
def affine (x : Byte) : Byte := byteOfBits (affineBit x)

/-! ### The forms of R122 -/

/-- `ROW[i]` of R122. -/
def affineRows : List Byte := [0xF1, 0xE3, 0xC7, 0x8F, 0x1F, 0x3E, 0x7C, 0xF8]

/-- The parity of a byte: the XOR of its bits. -/
def parity (x : Byte) : Bool := (List.range 8).foldl (fun acc k => acc ^^ x.getLsbD k) false

/-- Matrix rows (R122): output bit `i` is the parity of `x & ROW[i]`, XORed with `AFFC[i]`. -/
def affineByRows (x : Byte) : Byte :=
  byteOfBits fun i => parity (x &&& affineRows.getD i 0) ^^ affc.getLsbD i

/-- `rotl(x,k) = ((x << k) | (x >> (8-k))) & 0xFF` (R122). -/
def rotl (x : Byte) (k : Nat) : Byte := (x <<< k) ||| (x >>> (8 - k))

/-- Rotations (R122): `x ^ rotl(x,1) ^ rotl(x,2) ^ rotl(x,3) ^ rotl(x,4) ^ 0x63`. -/
def affineByRotations (x : Byte) : Byte :=
  x ^^^ rotl x 1 ^^^ rotl x 2 ^^^ rotl x 3 ^^^ rotl x 4 ^^^ affc

/-- The images of the unit vectors `1 << j` under the linear part (R122). -/
def affineColumns : List Byte := [0x1F, 0x3E, 0x7C, 0xF8, 0xF1, 0xE3, 0xC7, 0x8F]

/-- Columns (R122): the XOR of the columns of the set bits, then the constant. -/
def affineByColumns (x : Byte) : Byte :=
  (List.range 8).foldl (fun out j => if x.getLsbD j then out ^^^ affineColumns.getD j 0 else out) 0 ^^^ affc

/-! ### `AFF` -/

/-- `Exec(IFL) = (ok = true, res = affine(IFL.A), tbl = none)` (R123). -/
def affResult (a : Byte) : CommandResult :=
  { ok := true, res := some (zext9 (affine a)), tbl := none }

/-- `AFF a` (R123); `b` is ignored. -/
def execAff (a _b : Byte) (s : State) : Host.Outcome State Fault Refusal :=
  .next (completeCommand (affResult a) s)

end Sys2Proof.Machine
end

