-- ==== Sys2Proof/Machine/Du.lean ====
section
/-! DEFINITION. Differential uniformity: the function of R140 to R142, the counter bank that realises it (R30, R146), and
`DU` (R147). A table is taken as the function of its index. -/

namespace Sys2Proof.Machine

/-! ### The function -/

/-- `delta(T, α, x) = T[x] ^ T[x ^ α]` (R140). -/
def delta (T : Byte → Byte) (α x : Byte) : Byte := T x ^^^ T (x ^^^ α)

/-- `H_α[d]`: the number of `x` in 0..255 with `delta(T, α, x) = d` (R141). -/
def hist (T : Byte → Byte) (α d : Byte) : Nat := allBytes.countP fun x => delta T α x == d

/-- The maximum of a list of counts, 0 for none. -/
def maxOf (l : List Nat) : Nat := l.foldl max 0

/-- The largest count of one input difference: `max over d in 0..255 of H_α[d]` (R142). -/
def alphaMax (T : Byte → Byte) (α : Byte) : Nat := maxOf (allBytes.map (hist T α))

/-- `du(T)`: the maximum over α = 1..255, α = 0 excluded (R142, R144). Defined for every table (R145). -/
def du (T : Byte → Byte) : Nat := maxOf (nonzeroBytes.map (alphaMax T))

/-! ### The counter bank (R30, R146): informative, its result is `du` -/

/-- The histogram counters and the two running maxima, 9 bits each (R30). They exist only inside a `DU` command. -/
structure DuBank where
  counters : List Nine
  alphaMax : Nine
  overallMax : Nine
deriving DecidableEq, Repr

/-- The bank before the first α: every counter and both maxima 0. -/
def bankStart : DuBank := { counters := List.replicate 256 0, alphaMax := 0, overallMax := 0 }

/-- The larger of two 9-bit counts, unsigned (R9). -/
def nineMax (u v : Nine) : Nine := if u.toNat ≤ v.toNat then v else u

/-- One increment, at the index `d`. -/
def bankIncrement (bank : DuBank) (d : Byte) : DuBank :=
  { bank with counters := bank.counters.modify d.toNat (· + 1) }

/-- One α: clear the counters, count the 256 differences, reduce by maximum into the per-α maximum, and that into the
overall maximum. -/
def bankAlpha (T : Byte → Byte) (bank : DuBank) (α : Byte) : DuBank :=
  let counted := (allBytes.map (delta T α)).foldl bankIncrement
    { bank with counters := List.replicate 256 0 }
  let top := counted.counters.foldl nineMax 0
  { counted with alphaMax := top, overallMax := nineMax bank.overallMax top }

/-- The result of the bank over all α in ascending order (U17: any order gives it). -/
def duByBank (T : Byte → Byte) : Nine := (nonzeroBytes.foldl (bankAlpha T) bankStart).overallMax

/-! ### `DU` -/

/-- The result value of `DU` with the draw it may take (R147): `du(TABLE)` where every entry is written, else a `draw(9)`. -/
def duValue (s : State) : Nine × State :=
  if Memory.allWritten s.table then (BitVec.ofNat 9 (du (Memory.toFn s.table)), s)
  else drawNine s

/-- `Exec(IFL) = (ok = true, res, tbl = none)` (R147). -/
def duResult (v : Nine) : CommandResult := { ok := true, res := some v, tbl := none }

/-- `DU` (R147); both operand bytes are ignored. -/
def execDu (_a _b : Byte) (s : State) : Host.Outcome State Fault Refusal :=
  .next (completeCommand (duResult (duValue s).1) (duValue s).2)

end Sys2Proof.Machine
end

