-- ==== Sys2Proof/Machine/Mul.lean ====
section
/-! DEFINITION. The GF(2^8) multiplier: `gmul` (R90), two of the loops that R91 allows in its place, and `MUL` (R92). -/

namespace Sys2Proof.Machine

/-- `POLY` = 0x11B, the 9-bit pattern with the degree-8 term (R5). -/
def poly : Nine := 0x11B

/-- `xtime(a) = ((a << 1) ^ (0x11B if a[7] = 1 else 0)) & 0xFF`, on a 9-bit intermediate (R90). -/
def xtime (a : Byte) : Byte :=
  ((a.setWidth 9 <<< 1) ^^^ (if a.getLsbD 7 then poly else 0)).setWidth 8

/-- The loop of R90, `k` iterations from the accumulator `p`. -/
def gmulLoop : (k : Nat) → (p a b : Byte) → Byte
  | 0, p, _, _ => p
  | k + 1, p, a, b => gmulLoop k (if b.getLsbD 0 then p ^^^ a else p) (xtime a) (b >>> 1)

/-- `gmul(a, b)`: the field product, by 8 iterations of shift and add (R90). -/
def gmul (a b : Byte) : Byte := gmulLoop 8 0 a b

/-! ### Loops of other shape (R91): their value must be that of `gmul` -/

/-- The loop of R90 stopping early, "until `b` becomes zero" (R91). -/
def gmulEarlyLoop : (k : Nat) → (p a b : Byte) → Byte
  | 0, p, _, _ => p
  | k + 1, p, a, b =>
    if b = 0 then p
    else gmulEarlyLoop k (if b.getLsbD 0 then p ^^^ a else p) (xtime a) (b >>> 1)

/-- The multiplier that stops when no bit of `b` is left. -/
def gmulEarly (a b : Byte) : Byte := gmulEarlyLoop 8 0 a b

/-- The multiplier whose loop takes the most significant bit of `b` first (R91). -/
def gmulMsbFirst (a b : Byte) : Byte :=
  [7, 6, 5, 4, 3, 2, 1, 0].foldl
    (fun p k => if b.getLsbD k then xtime p ^^^ a else xtime p) 0

/-! ### `MUL` -/

/-- `Exec(IFL) = (ok = true, res = gmul(IFL.A, IFL.B), tbl = none)` (R92). -/
def mulResult (a b : Byte) : CommandResult :=
  { ok := true, res := some (zext9 (gmul a b)), tbl := none }

/-- `MUL a, b` (R92). -/
def execMul (a b : Byte) (s : State) : Host.Outcome State Fault Refusal :=
  .next (completeCommand (mulResult a b) s)

end Sys2Proof.Machine
end

