-- ==== Sys2Proof/Machine/Poly.lean ====
section
/-! DEFINITION. Polynomials over GF(2) as natural numbers, bit `k` the coefficient of x^k, for the primitives `clmul`,
`deg` and `pdivmod` of R10 and R103. They are exact: nothing is narrowed here. -/

namespace Sys2Proof.Machine

/-- `deg(p)`: the index of the highest set bit, with `deg(0) = -1` (R10, R103). -/
def deg (p : Nat) : Int := if p = 0 then -1 else (p.log2 : Int)

/-- The loop of `pdivmod` (R103): while `deg(n) >= deg(d)`, take `d` shifted under the top of `n` out of `n`. The fuel bounds
the iterations; each lowers `deg(n)`. -/
def pdivmodLoop : (fuel q n d : Nat) → Nat × Nat
  | 0, q, n, _ => (q, n)
  | fuel + 1, q, n, d =>
    if deg n ≥ deg d then
      let s := (deg n - deg d).toNat
      pdivmodLoop fuel (q ||| (1 <<< s)) (n ^^^ (d <<< s)) d
    else (q, n)

/-- `pdivmod(n, d)`: quotient and remainder over GF(2), for `d != 0` (R10, R103). -/
def pdivmod (n d : Nat) : Nat × Nat := pdivmodLoop (n.log2 + 1) 0 n d

/-- `clmul(p, q)`: the carry-less product, unreduced (R10). -/
def clmul (p q : Nat) : Nat :=
  (List.range (q.log2 + 1)).foldl (fun acc k => if q.testBit k then acc ^^^ (p <<< k) else acc) 0

/-- The field polynomial x^8+x^4+x^3+x+1 as a polynomial (R5, R94). -/
def polyNat : Nat := 0x11B

end Sys2Proof.Machine
end

