-- ==== Sys2Proof/Machine/Inv.lean ====
section
/-! DEFINITION. The inversion engine: the field inverse `ginv` (R100), the three methods (R102 to R104), the self-check of
R106 and the commands `INV.SCAN`, `INV.EEA` and `INV.FERMAT` (R108 to R111). -/

namespace Sys2Proof.Machine

/-! ### The field inverse -/

/-- The bytes `i` in 1..255 with `gmul(a, i) = 1`. R100 says there is exactly one for a nonzero `a`. -/
def inverses (a : Byte) : List Byte := nonzeroBytes.filter fun i => gmul a i == 1

/-- `ginv(a)` (R100, R101): 0 for 0, else the `i` in 1..255 with `gmul(a, i) = 1`. -/
def ginv (a : Byte) : Byte := if a = 0 then 0 else (inverses a).headD 0

/-! ### The three methods. Each answers (found, r). -/

/-- Method SCAN (R102): the candidates 1..255 in ascending order. -/
def invScan (a : Byte) : Bool × Byte :=
  if a = 0 then (true, 0)
  else
    match nonzeroBytes.find? fun i => gmul a i == 1 with
    | some i => (true, i)
    | none => (false, 0)

/-- The loop of R103 while `deg(r1) > 0`. The remainders `r0`, `r1` are polynomials of up to 9 bits, the Bezout
coefficients `t0`, `t1` are field elements. The fuel bounds the iterations; each lowers `deg(r1)`. -/
def eeaLoop : (fuel : Nat) → (r0 r1 : Nat) → (t0 t1 : Byte) → Nat × Byte
  | 0, _, r1, _, t1 => (r1, t1)
  | fuel + 1, r0, r1, t0, t1 =>
    if deg r1 > 0 then
      let qr := pdivmod r0 r1
      eeaLoop fuel r1 qr.2 t1 (t0 ^^^ gmul (BitVec.ofNat 8 qr.1) t1)
    else (r1, t1)

/-- Method EEA (R103): the extended Euclidean algorithm from `POLY` and `a`. The degree of `r1` is at most 7 at the start, so
8 iterations would end the loop, and R103 counts at most 7. -/
def invEea (a : Byte) : Bool × Byte :=
  if a = 0 then (true, 0)
  else
    let rt := eeaLoop 8 polyNat a.toNat 0 1
    (rt.1 == 1, rt.2)

/-- Method FERMAT (R104): `a^254` by square and multiply, the exponent bits from the most significant. -/
def invFermat (a : Byte) : Bool × Byte :=
  (true,
    [7, 6, 5, 4, 3, 2, 1, 0].foldl
      (fun r k => if (254 : Nat).testBit k then gmul (gmul r r) a else gmul r r) 1)

/-- The method that `METH` selects (R64). -/
def invBy (m : Method) (a : Byte) : Bool × Byte :=
  match m with
  | .scan => invScan a
  | .eea => invEea a
  | .fermat => invFermat a

/-! ### The self-check -/

/-- `inv_checked(a, meth) -> (ok, r)` (R106): `ok` is `found and (a = 0 or gmul(a, r) = 1)`. -/
def invChecked (m : Method) (a : Byte) : Bool × Byte :=
  ((invBy m a).1 && (a == 0 || gmul a (invBy m a).2 == 1), (invBy m a).2)

/-! ### The commands -/

/-- `Exec(IFL) = (ok, res = r, tbl = none)` with `(ok, r) <- inv_checked(IFL.A, IFL.METH)` (R108). -/
def invResult (m : Method) (a : Byte) : CommandResult :=
  { ok := (invChecked m a).1, res := some (zext9 (invChecked m a).2), tbl := none }

/-- `INV.SCAN a` (R109); `b` is ignored. -/
def execInvScan (a _b : Byte) (s : State) : Host.Outcome State Fault Refusal :=
  .next (completeCommand (invResult .scan a) s)

/-- `INV.EEA a` (R110); `b` is ignored. -/
def execInvEea (a _b : Byte) (s : State) : Host.Outcome State Fault Refusal :=
  .next (completeCommand (invResult .eea a) s)

/-- `INV.FERMAT a` (R111); `b` is ignored. -/
def execInvFermat (a _b : Byte) (s : State) : Host.Outcome State Fault Refusal :=
  .next (completeCommand (invResult .fermat a) s)

end Sys2Proof.Machine
end

