-- ==== Sys2Proof/Machine/Nop.lean ====
section
/-! DEFINITION. `NOP` (R88). -/

namespace Sys2Proof.Machine

/-- `Exec(IFL) = (ok = true, res = none, tbl = none)` (R88). -/
def nopResult : CommandResult := { ok := true, res := none, tbl := none }

/-- `NOP` (R88): the completion step writes only `STATUS`; both operand bytes are ignored. -/
def execNop (_a _b : Byte) (s : State) : Host.Outcome State Fault Refusal :=
  .next (completeCommand nopResult s)

end Sys2Proof.Machine
end

