-- ==== Sys2Proof/Machine/Dispatch.lean ====
section
/-! DEFINITION. The completion step of each command (R84): one arm for each constructor of `Instr`. -/

namespace Sys2Proof.Machine

def exec (i : Instr) (s : State) : Host.Outcome State Fault Refusal :=
  match i with
  | .nop a b => Sys2Proof.Machine.execNop a b s
  | .mul a b => Sys2Proof.Machine.execMul a b s
  | .invScan a b => Sys2Proof.Machine.execInvScan a b s
  | .invEea a b => Sys2Proof.Machine.execInvEea a b s
  | .invFermat a b => Sys2Proof.Machine.execInvFermat a b s
  | .aff a b => Sys2Proof.Machine.execAff a b s
  | .sbox a b => Sys2Proof.Machine.execSbox a b s
  | .genScan a b => Sys2Proof.Machine.execGenScan a b s
  | .genEea a b => Sys2Proof.Machine.execGenEea a b s
  | .genFermat a b => Sys2Proof.Machine.execGenFermat a b s
  | .du a b => Sys2Proof.Machine.execDu a b s

end Sys2Proof.Machine
end

