-- ==== Sys2Proof/Machine/Engine.lean ====
section
/-! DEFINITION. The two agents' turns (R11): the engine's one enabled step while `BUSY = 1` (R83), and what each event
does. -/

namespace Sys2Proof.Machine

/-- The engine's fetch: the command in `IFL` (R52, R85), none where the latch holds no legal word. -/
def fetchLatch (s : State) : Option Instr :=
  match decodeWord s.ifl with
  | .ok i => some i
  | .error _ => none

/-- The engine's turn (R83): while `BUSY = 1`, the completion of the command in `IFL`; while `BUSY = 0` it has no step, and its
turn passes. -/
def engineTurn (s : State) : Host.Outcome State Fault Refusal :=
  if s.status.busy then
    match fetchLatch s with
    | some i => exec i s
    | none => .fault .latchHoldsNoCommand
  else .next s

/-- What one event does to the state it happens in. -/
def takeEvent (e : Event) (s : State) : Host.Outcome State Fault Refusal :=
  match e with
  | .access a => hostAccess a s
  | .engine => engineTurn s
  | .reset => .next (applyReset s)
  | .accessDuringReset _ => .refused .accessDuringReset
  | .secondMaster _ => .refused .secondMaster

end Sys2Proof.Machine
end

