-- ==== Sys2Proof/Machine/Step.lean ====
section
/-! DEFINITION. One step of the machine: the first event due, or, when none is due, the engine's turn. -/

namespace Sys2Proof.Machine

/-- One step (R12, R48). With events due, the first of them happens. With none due, the engine takes its turn: a command in
flight still completes (R83, R193), and an idle core waits (R183). -/
def step (s : State) : Host.Outcome State Fault Refusal :=
  match s.events with
  | [] => engineTurn s
  | e :: rest => takeEvent e { s with events := rest }

/-- `s` with the command word `w` in the in-flight latch, latched as acceptance latches it (R82), and the engine's turn the
next event: the very next step completes that command. -/
def State.withFetchWord (s : State) (nbits w : Nat) : State :=
  { acceptCommand (BitVec.ofNat 32 (w % 2 ^ nbits)) s with events := .engine :: s.events }

end Sys2Proof.Machine
end

