-- ==== Sys2Proof/Safety.lean ====
section
/-! DEFINITION. What a safe run is: the invariant of the state, the states that runs from reset reach, when a run is over,
what is observed of it (R193), and which states no observation tells apart (R29, U10). -/

namespace Sys2Proof.Machine

/-- What holds of every state from reset on, command or no command. -/
structure StateInv (s : State) : Prop where
  /-- `BUSY = 1` and `FATAL = 1` never hold together (R22, R166). -/
  busy_not_fatal : s.status.busy = true → s.status.fatal = false
  /-- `BUSY = 1` and `DONE = 1` never hold together (R22). -/
  busy_not_done : s.status.busy = true → s.status.done = false
  /-- `LASTCMD` equals `IFL` while `BUSY = 1` (R29). -/
  latch_is_lastcmd : s.status.busy = true → s.ifl = s.lastcmd
  /-- Only legal words are accepted, so `LASTCMD` holds one: its reserved bits read 0 (R21, R63, R80). -/
  lastcmd_legal : legal s.lastcmd = true
  /-- `ERR` codes 5 to 7 are never produced (R161, U11). -/
  err_produced : s.status.err.toNat ≤ 4
  /-- `TABLE` is in its canonical form: its entries are 0..255, each listed once. -/
  table_wf : Memory.wf s.table

/-- `k` steps, stopping at the first fault or refusal. -/
def steps : Nat → State → Host.Outcome State Fault Refusal
  | 0, s => .next s
  | k + 1, s =>
    match Machine.step s with
    | .next s' => steps k s'
    | .fault r => .fault r
    | .refused r => .refused r

/-- A powered-up machine: the reset state, with the window anywhere (R6) and any events to come. -/
def poweredUp (basePage : Nat) (events : List Event) : State :=
  { State.reset with basePage := basePage, events := events }

/-- The states that runs from power-up reach, whatever the host does and wherever the engine's turns fall. -/
inductive Reachable : State → Prop where
  | start (basePage : Nat) (events : List Event) : Reachable (poweredUp basePage events)
  | step {s s' : State} : Reachable s → Machine.step s = .next s' → Reachable s'

/-- An event that the spec gives a behaviour: not an access that R42, R54 or R183 does not admit. -/
def Event.admitted (basePage : Nat) : Event → Bool
  | .access a =>
    match windowOffset basePage a.addr with
    | none => true
    | some off => Machine.admitted a.width off
  | .engine | .reset => true
  | .accessDuringReset _ | .secondMaster _ => false

/-- Whether an event is an access still to be performed. An engine's turn and a reset are none. The access of a second master is
counted with the host's: R54 gives such a system no behaviour, so no run that has one to come is over (log entry 16). -/
def Event.isAccess : Event → Bool
  | .access _ | .accessDuringReset _ | .secondMaster _ => true
  | .engine | .reset => false

/-- R193: a run is over when the host has performed its last access and no command is in flight, whatever turns of the engine
and resets are still to come. -/
def runOver (s : State) : Bool := !s.events.any Event.isAccess && !s.status.busy

/-- The observation of a run (R193): the final `LASTCMD`, `STATUS`, `RESULT` and `TABLE` with its `WR` flags, and the values
that the host's reads returned. -/
structure Observation where
  lastcmd : Word
  status : Word
  result : Word
  table : List Host.Cell
  reads : List Word
deriving DecidableEq, Repr

/-- What is observed of a state. -/
def observe (s : State) : Observation :=
  { lastcmd := s.lastcmd
    status := s.status.word
    result := resultWord s.result
    table := s.table
    reads := s.readLog }

/-- The first state of the run from `s`, `s` among them, at which the run is over (R193): none where the run stops with a
fault or a refusal before, or where `k` steps do not come there. -/
def runEnd : Nat → State → Option State
  | 0, s => if runOver s then some s else none
  | k + 1, s =>
    if runOver s then some s
    else
      match Machine.step s with
      | .next s' => runEnd k s'
      | .fault _ => none
      | .refused _ => none

/-- The observation of the run from `s` (R193), taken at its end and not later: a reset still to come changes nothing of it.
Each event takes one step, and a command still in flight after the last of them one more, the completion that is owed (R83). -/
def runObservation (s : State) : Option Observation := (runEnd (s.events.length + 1) s).map observe

/-- What is observed where a run stands, none where it has stopped with a fault or a refusal. -/
def observedAfter (o : Host.Outcome State Fault Refusal) : Option Observation :=
  match o with
  | .next s => some (observe s)
  | .fault _ => none
  | .refused _ => none

/-- Two states that differ at most in `IFL`, and in it only while `BUSY = 0` (R29, U10). -/
def SameButIdleLatch (s u : State) : Prop :=
  u = { s with ifl := u.ifl } ∧ (s.status.busy = true → u.ifl = s.ifl)

/-- Two outcomes that go on alike, in states that differ at most in the latch of an idle core, or stop alike. -/
def AlikeButIdleLatch (o p : Host.Outcome State Fault Refusal) : Prop :=
  match o, p with
  | .next s, .next u => SameButIdleLatch s u
  | .fault r, .fault q => r = q
  | .refused r, .refused q => r = q
  | _, _ => False

end Sys2Proof.Machine
end

