-- ==== Sys2Proof/Certificates/Slice0/Obligations.lean ====
section
/-! DEFINITION. The statements about the model, for the provers. Each docstring names the rules of spec/ it comes from. -/

open Sys2Proof Sys2Proof.Machine

/-! ### Encoding -/

/-- R60, R62, R64, R66, R70: every command, with every operand byte, decodes from its own word, and from the word's four
bytes followed by any others. -/
def Obligations.EncodedCommandDecodesToItself : Prop :=
  ∀ (i : Instr) (rest : List Byte),
    decodeWord (encode i) = .ok i ∧ decodeBytes (wordBytes (encode i) ++ rest) = .ok (i, rest)

/-- R60, R61, R66: the decoder drops no bit of a word, ignored fields included, so each legal word has one meaning. -/
def Obligations.DecodedWordIsItsEncoding : Prop :=
  ∀ (w : Word) (i : Instr), decodeWord w = .ok i → encode i = w

/-- R67: the legality predicate by its fields, and equivalently by the eleven values of `w & 0xFF0000FF`. -/
def Obligations.LegalByFieldsAndByMask : Prop :=
  ∀ w : Word,
    (legal w = true ↔
      w.extractLsb' 24 8 = 0 ∧ w.extractLsb' 6 2 = 0 ∧
        ((w.extractLsb' 0 4 ∈ [0x2#4, 0x5#4] ∧ w.extractLsb' 4 2 ∈ [0#2, 1#2, 2#2]) ∨
          (w.extractLsb' 0 4 ∈ [0x0#4, 0x1#4, 0x3#4, 0x4#4, 0x6#4] ∧ w.extractLsb' 4 2 = 0))) ∧
    (legal w = true ↔
      w &&& 0xFF0000FF#32 ∈
        [0x00#32, 0x01#32, 0x02#32, 0x12#32, 0x22#32, 0x03#32, 0x04#32, 0x05#32, 0x15#32, 0x25#32, 0x06#32])

/-- R63, R65, R68: the decoder reads a command from exactly the legal words, and rejects the others by the reason: reserved
bits, then a reserved `OP`, then an illegal `METH`. -/
def Obligations.DecoderRejectsExactlyIllegalWords : Prop :=
  ∀ w : Word,
    (legal w = true ↔ ∃ i, decodeWord w = .ok i) ∧
    (rsv0Field w ≠ 0 ∨ rsv1Field w ≠ 0 → decodeWord w = .error .reservedBits) ∧
    (rsv0Field w = 0 → rsv1Field w = 0 → 7 ≤ (opField w).toNat → decodeWord w = .error .reservedOp) ∧
    (rsv0Field w = 0 → rsv1Field w = 0 → opField w ∈ [0x2#4, 0x5#4] → methField w = 3 →
      decodeWord w = .error .illegalMethod) ∧
    (rsv0Field w = 0 → rsv1Field w = 0 → opField w ∈ [0x0#4, 0x1#4, 0x3#4, 0x4#4, 0x6#4] → methField w ≠ 0 →
      decodeWord w = .error .illegalMethod)

/-- Words of spec/95_test_vectors.md 2.1 to 2.8, one for each row of the opcode table, decode to the commands listed. -/
def Obligations.WrittenWordsDecode : Prop :=
  decodeWord 0x00FFFF00 = .ok (.nop 0xFF 0xFF) ∧
  decodeWord 0x00835701 = .ok (.mul 0x57 0x83) ∧
  decodeWord 0x00005302 = .ok (.invScan 0x53 0) ∧
  decodeWord 0x00005312 = .ok (.invEea 0x53 0) ∧
  decodeWord 0x00005322 = .ok (.invFermat 0x53 0) ∧
  decodeWord 0x00FF0003 = .ok (.aff 0 0xFF) ∧
  decodeWord 0x00005304 = .ok (.sbox 0x53 0) ∧
  decodeWord 0x00FFFF05 = .ok (.genScan 0xFF 0xFF) ∧
  decodeWord 0x00000015 = .ok (.genEea 0 0) ∧
  decodeWord 0x00000025 = .ok (.genFermat 0 0) ∧
  decodeWord 0x0000FF06 = .ok (.du 0xFF 0)

/-- R70: the word that the assembler writes for each line, 0 in the fields the command ignores. R71: the pseudo-instructions
expand, `INV a` to `INV.SCAN a`, `GEN` to `GEN.SCAN`, `SQR a` to `MUL a, a`, for every literal. -/
def Obligations.AssemblerWritesTheWordOfEachLine : Prop :=
  (∀ (line : Asm) (i : Instr), assemble line = some i → i.canonical = true) ∧
  (∀ a b : Byte,
    (assemble .nop).map encode = some 0x00000000 ∧
    (assemble (.mul a.toNat b.toNat)).map encode =
      some (b.setWidth 32 <<< 16 ||| a.setWidth 32 <<< 8 ||| 0x01) ∧
    (assemble (.invScan a.toNat)).map encode = some (a.setWidth 32 <<< 8 ||| 0x02) ∧
    (assemble (.invEea a.toNat)).map encode = some (a.setWidth 32 <<< 8 ||| 0x12) ∧
    (assemble (.invFermat a.toNat)).map encode = some (a.setWidth 32 <<< 8 ||| 0x22) ∧
    (assemble (.aff a.toNat)).map encode = some (a.setWidth 32 <<< 8 ||| 0x03) ∧
    (assemble (.sbox a.toNat)).map encode = some (a.setWidth 32 <<< 8 ||| 0x04) ∧
    (assemble .genScan).map encode = some 0x00000005 ∧
    (assemble .genEea).map encode = some 0x00000015 ∧
    (assemble .genFermat).map encode = some 0x00000025 ∧
    (assemble .du).map encode = some 0x00000006) ∧
  ∀ n : Nat,
    assemble (.inv n) = assemble (.invScan n) ∧ assemble .gen = assemble .genScan ∧
      assemble (.sqr n) = assemble (.mul n n)

/-- R43: byte lane `k` of a word carries its bits `8k+7 : 8k`, and the four lanes give the word back. -/
def Obligations.ByteLanesAreLittleEndian : Prop :=
  ∀ w : Word,
    wordOfLanes (laneOf w 0) (laneOf w 1) (laneOf w 2) (laneOf w 3) = w ∧
      ∀ k < 4, ∀ j < 8, (laneOf w k).getLsbD j = w.getLsbD (8 * k + j)

/-! ### Acceptance, rejection and the engine -/

/-- R80, R82: a write of a legal word to `CMD`, with `FATAL = 0` and `BUSY = 0`, accepts the command in one step. Nothing but
`IFL`, `LASTCMD`, `BUSY`, `DONE` and `ERR` changes. -/
def Obligations.LegalWriteToIdleCoreIsAccepted : Prop :=
  ∀ (s : State) (w : Word) (rest : List Event),
    s.events = .access (issue s.basePage w) :: rest →
    s.status.fatal = false → s.status.busy = false → legal w = true →
    step s = .next { s with
      events := rest
      ifl := w
      lastcmd := w
      status := { busy := true, done := false, fatal := false, err := 0 } }

/-- R81, R163: any other write to `CMD` is rejected with HALTED, CMD_BUSY or ILLEGAL, in that order, and changes nothing but
`ERR`. -/
def Obligations.OtherWriteToCmdIsRejected : Prop :=
  ∀ (s : State) (w : Word) (rest : List Event),
    s.events = .access (issue s.basePage w) :: rest →
    ¬ (s.status.fatal = false ∧ s.status.busy = false ∧ legal w = true) →
    step s = .next { s with
      events := rest
      status := { s.status with
        err := if s.status.fatal = true then 4 else if s.status.busy = true then 2 else 1 } }

/-- R83, R85: while `BUSY = 1`, the engine's step is the completion of the command that `IFL` decodes to. It is the step when
the engine's turn is the event due, and (the model's choice, log entry 3) when no event is due. -/
def Obligations.StepRunsTheCommandInTheLatch : Prop :=
  ∀ (s : State) (i : Instr),
    s.status.busy = true → decodeWord s.ifl = .ok i →
    (s.events = [] → step s = exec i s) ∧
      ∀ rest, s.events = .engine :: rest → step s = exec i { s with events := rest }

/-- R83: while `BUSY = 0`, the engine has no step. That its turn then passes, and that an idle core with no event due
stays as it is, is the model's choice (log entry 3). -/
def Obligations.IdleEngineChangesNothing : Prop :=
  ∀ s : State,
    s.status.busy = false →
    (s.events = [] → step s = .next s) ∧
      ∀ rest, s.events = .engine :: rest → step s = .next { s with events := rest }

/-- R80, R82, R83: a command issued to an idle core, and then given its turn, runs: the two steps are its meaning at the
accepted state, for every command and every value of its operand and ignored bytes. -/
def Obligations.IssuedCommandRuns : Prop :=
  ∀ (s : State) (i : Instr) (rest : List Event),
    s.events = .access (issue s.basePage (encode i)) :: .engine :: rest →
    s.status.fatal = false → s.status.busy = false →
    steps 2 s = exec i { s with
      events := rest
      ifl := encode i
      lastcmd := encode i
      status := { busy := true, done := false, fatal := false, err := 0 } }

/-- The host's way to place a word where the engine fetches: the very next step runs the command of the word, with the
latch, `LASTCMD` and `STATUS` as acceptance leaves them (R82; log entry 6). -/
def Obligations.PlacedWordRunsNext : Prop :=
  ∀ (s : State) (i : Instr),
    step (s.withFetchWord 32 (encode i).toNat) = exec i { s with
      ifl := encode i
      lastcmd := encode i
      status := { s.status with busy := true, done := false, err := 0 } }

/-! ### Host accesses -/

/-- R45: what an aligned 32-bit read at each offset of the window returns, and that it changes no state of the core. That the value
goes to the read log (log entry 4), and that a `draw(8)` advances the draw counter (log entry 2), is no part of the rule: both
are the model's own. -/
def Obligations.HostReadReturnsTheRegister : Prop :=
  ∀ (s : State) (off : Nat) (rest : List Event),
    off % 4 = 0 → off < 0x1000 → s.events = .access (readAt s.basePage off) :: rest →
    let inTable := 0x400 ≤ off ∧ off ≤ 0x7FC
    let entry := Memory.read s.table ((off - 0x400) / 4)
    let inFlight := s.status.busy = true ∧ (opField s.ifl = 0x5 ∨ opField s.ifl = 0x6)
    (inTable ∧ (inFlight ∨ entry = none) →
      step s = .next { s with
        events := rest
        readLog := (Config.drawByte s.draws).setWidth 32 :: s.readLog
        draws := s.draws + 1 }) ∧
    (∀ v, inTable ∧ ¬ inFlight ∧ entry = some v →
      step s = .next { s with events := rest, readLog := v.setWidth 32 :: s.readLog }) ∧
    (¬ inTable →
      step s = .next { s with
        events := rest
        readLog :=
          (if off = 0x000 then s.lastcmd
           else if off = 0x004 then
             BitVec.ofNat 32 (s.status.err.toNat * 256 + s.status.fatal.toNat * 4 + s.status.done.toNat * 2
               + s.status.busy.toNat)
           else if off = 0x008 then s.result.setWidth 32
           else if off = 0x00C then 0x47463807
           else 0) :: s.readLog })

/-- R46, R25, R26: what an aligned 32-bit write at each offset of the window does. At 0x000 it presents a command; in `TABLE` it
stores the low byte, or is dropped with `ERR = 3` while a command is in flight; anywhere else it does nothing. -/
def Obligations.HostWriteEffects : Prop :=
  ∀ (s : State) (off : Nat) (w : Word) (rest : List Event),
    off % 4 = 0 → off < 0x1000 → s.events = .access (writeAt s.basePage off w) :: rest →
    (off = 0x000 → step s = .next (presentCommand w { s with events := rest })) ∧
    (0x400 ≤ off → off ≤ 0x7FC → s.status.busy = true →
      step s = .next { s with events := rest, status := { s.status with err := 3 } }) ∧
    (0x400 ≤ off → off ≤ 0x7FC → s.status.busy = false →
      step s = .next { s with
        events := rest
        table := Memory.write s.table ((off - 0x400) / 4) (w.setWidth 8) }) ∧
    (off ≠ 0x000 → off < 0x400 ∨ 0x7FC < off → step s = .next { s with events := rest })

/-- R27, R45, R46: with no command in flight, a table write and then a read of the same index returns the written byte with
bits 31:8 zero, and a read of any other index that was written returns what it held. -/
def Obligations.TableWriteThenRead : Prop :=
  ∀ (s : State) (i j : Byte) (w : Word) (rest : List Event),
    s.status.busy = false →
    s.events = .access (tableWrite s.basePage i w) :: .access (tableRead s.basePage j) :: rest →
    (i = j → ∃ t, steps 2 s = .next t ∧ t.readLog = (w &&& 0xFF) :: s.readLog) ∧
    (i ≠ j → ∀ v, Memory.read s.table j.toNat = some v →
      ∃ t, steps 2 s = .next t ∧ t.readLog = v.setWidth 32 :: s.readLog)

/-- R42: an access to the window that is not 32 bits wide, or not at a multiple of 4, has no step; the model records a
refusal. -/
def Obligations.UnadmittedAccessIsRefused : Prop :=
  ∀ (s : State) (off : Nat) (width : Width) (t : Transfer) (rest : List Event),
    off < 0x1000 → width ≠ .bits32 ∨ off % 4 ≠ 0 →
    s.events = .access { addr := 4096 * s.basePage + off, width := width, transfer := t } :: rest →
    step s = .refused .accessNotAdmitted

/-- R40: an access outside the window is not the core's concern: it changes nothing. -/
def Obligations.AccessOutsideTheWindowChangesNothing : Prop :=
  ∀ (s : State) (a : Access) (rest : List Event),
    a.addr < 4096 * s.basePage ∨ 4096 * s.basePage + 0x1000 ≤ a.addr →
    s.events = .access a :: rest →
    step s = .next { s with events := rest }

/-- R54, R183: an access of a second bus master and an access in the same cycle as reset are not admitted. -/
def Obligations.UnadmittedEventsAreRefused : Prop :=
  ∀ (s : State) (a : Access) (rest : List Event),
    (s.events = .secondMaster a :: rest → step s = .refused .secondMaster) ∧
      (s.events = .accessDuringReset a :: rest → step s = .refused .accessDuringReset)

/-- R189: after a write to `CMD` and then a read of `STATUS`, with no other access between (the engine may take its turn), the `ERR`
field read is 0 exactly when the write was accepted, and else the code of its rejection. -/
def Obligations.StatusReadTellsWhetherAccepted : Prop :=
  ∀ (s : State) (w : Word) (n : Nat) (rest : List Event),
    StateInv s →
    s.events = .access (issue s.basePage w) ::
      (List.replicate n .engine ++ .access (readAt s.basePage 0x004) :: rest) →
    ∃ t v, steps (n + 2) s = .next t ∧ t.readLog = v :: s.readLog ∧
      (v.extractLsb' 8 3 = 0#3 ↔ s.status.fatal = false ∧ s.status.busy = false ∧ legal w = true) ∧
      (v.extractLsb' 8 3 = 0#3 → t.lastcmd = w) ∧
      (v.extractLsb' 8 3 ≠ 0#3 → t.lastcmd = s.lastcmd ∧
        v.extractLsb' 8 3 = (if s.status.fatal = true then 4#3 else if s.status.busy = true then 2#3 else 1#3))

/-! ### Reset -/

/-- R180, R182: reset leaves `LASTCMD`, `STATUS` and `RESULT` 0 and every `TABLE` entry unwritten, whatever was in flight. R180 leaves
`IFL` a "don't care", and so does this statement. -/
def Obligations.ResetStepLeavesTheResetState : Prop :=
  ∀ (s : State) (rest : List Event),
    s.events = .reset :: rest →
    ∃ s', step s = .next s' ∧
      s'.lastcmd = 0 ∧ s'.status = { busy := false, done := false, fatal := false, err := 0 } ∧
      s'.result = 0 ∧ ∀ i : Byte, Memory.written s'.table i = false

/-- R180: the state right after reset, as R21 to R24 and R31 give it: `LASTCMD`, `STATUS` and `RESULT` read 0, and `WR[i]` is false for
every `i`. -/
def Obligations.ResetStateHoldsTheResetValues : Prop :=
  State.reset.lastcmd = 0 ∧ State.reset.status.word = 0 ∧ resultWord State.reset.result = 0 ∧
    ∀ i : Byte, Memory.written State.reset.table i = false

/-! ### The commands: each completes from every state, with its result and its frame -/

/-- R88, R84: `NOP` changes nothing but `BUSY` and `DONE`. -/
def Obligations.NopCompletes : Prop :=
  ∀ (a b : Byte) (s : State),
    exec (.nop a b) s = .next { s with status := { s.status with busy := false, done := true } }

/-- R92, R84: `MUL` puts the field product in `RESULT` and changes nothing else but `BUSY` and `DONE`. -/
def Obligations.MulCompletes : Prop :=
  ∀ (a b : Byte) (s : State),
    exec (.mul a b) s = .next { s with
      result := (gmul a b).setWidth 9
      status := { s.status with busy := false, done := true } }

/-- R108 to R111, R84: `INV` by each method puts the field inverse in `RESULT`, for every operand; the ignored byte `b` has no
effect, and the self-check never fails. -/
def Obligations.InvCommandsComplete : Prop :=
  ∀ (a b : Byte) (s : State),
    let completed : State := { s with
      result := (ginv a).setWidth 9
      status := { s.status with busy := false, done := true } };
    exec (.invScan a b) s = .next completed ∧ exec (.invEea a b) s = .next completed ∧ exec (.invFermat a b) s = .next completed

/-- R123, R84: `AFF` puts the affine transform in `RESULT`; the ignored byte `b` has no effect. -/
def Obligations.AffCompletes : Prop :=
  ∀ (a b : Byte) (s : State),
    exec (.aff a b) s = .next { s with
      result := (affine a).setWidth 9
      status := { s.status with busy := false, done := true } }

/-- R132, R28, R130: `SBOX` puts `affine(ginv(a))` in `RESULT`, whatever `TABLE` holds. -/
def Obligations.SboxCompletes : Prop :=
  ∀ (a b : Byte) (s : State),
    exec (.sbox a b) s = .next { s with
      result := (affine (ginv a)).setWidth 9
      status := { s.status with busy := false, done := true } }

/-- R133 to R137, R84: `GEN` by each method writes every entry `x` of `TABLE` with `affine(ginv(x))` and leaves `RESULT` alone. -/
def Obligations.GenCommandsComplete : Prop :=
  ∀ (a b : Byte) (s : State),
    ∃ table : List Host.Cell,
      (∀ x : Byte, Memory.read table x.toNat = some (affine (ginv x))) ∧ Memory.wf table ∧
      (let completed : State := { s with
          table := table
          status := { s.status with busy := false, done := true } };
        exec (.genScan a b) s = .next completed ∧ exec (.genEea a b) s = .next completed ∧
          exec (.genFermat a b) s = .next completed)

/-- R147, R84: `DU` over a table whose every entry is written puts its differential uniformity in `RESULT`; `TABLE` is not
modified. -/
def Obligations.DuCompletesOnAWrittenTable : Prop :=
  ∀ (a b : Byte) (s : State) (T : Byte → Byte),
    (∀ x : Byte, Memory.read s.table x.toNat = some (T x)) →
    exec (.du a b) s = .next { s with
      result := BitVec.ofNat 9 (du T)
      status := { s.status with busy := false, done := true } }

/-- R147, R181: `DU` over a table with an unwritten entry completes with a `draw(9)` in `RESULT`. -/
def Obligations.DuDrawsOnAnUnwrittenEntry : Prop :=
  ∀ (a b : Byte) (s : State) (x : Byte),
    Memory.read s.table x.toNat = none →
    exec (.du a b) s = .next { s with
      result := Config.drawNine s.draws
      draws := s.draws + 1
      status := { s.status with busy := false, done := true } }

/-- R166: what an abort does, for a result whose self-check failed: `FATAL <- 1`, `BUSY <- 0`, `DONE <- 0`, and every entry unwritten
if `IFL.OP = GEN`. -/
def Obligations.FailedSelfCheckAborts : Prop :=
  ∀ (r : CommandResult) (s : State),
    r.ok = false →
    completeCommand r s = { s with
      status := { s.status with busy := false, done := false, fatal := true }
      table := if opField s.ifl = 0x5 then [] else s.table }

/-! ### The field -/

/-- R93: `gmul` is commutative, distributive over XOR and associative, with identity 1 and zero 0, and every nonzero byte has exactly
one inverse. -/
def Obligations.FieldProductLaws : Prop :=
  (∀ a b, gmul a b = gmul b a) ∧
  (∀ a b c, gmul a (b ^^^ c) = gmul a b ^^^ gmul a c) ∧
  (∀ a b c, gmul (gmul a b) c = gmul a (gmul b c)) ∧
  (∀ a, gmul a 1 = a) ∧
  (∀ a, gmul a 0 = 0) ∧
  ∀ a, a ≠ 0 → ∃! i, gmul a i = 1

/-- R91, R8: `gmul(a, b)` is the polynomial product `a(x) b(x)` reduced modulo `POLY`. -/
def Obligations.FieldProductIsThePolynomialProduct : Prop :=
  ∀ a b : Byte, (gmul a b).toNat = (pdivmod (clmul a.toNat b.toNat) 0x11B).2

/-- R91: the loop that stops when `b` is zero and the loop that takes the most significant bit first give the value of the loop
of R90, for all operand pairs. -/
def Obligations.OtherMultiplierLoopsAgree : Prop :=
  ∀ a b : Byte, gmulEarly a b = gmul a b ∧ gmulMsbFirst a b = gmul a b

/-- R94: no polynomial of degree 1 to 7 divides `POLY`. -/
def Obligations.FieldPolynomialIsIrreducible : Prop :=
  ∀ d : Nat, 1 ≤ deg d → deg d ≤ 7 → (pdivmod 0x11B d).2 ≠ 0

/-- R100: `ginv(0) = 0`, and for `a` in 1..255 `ginv(a)` is the unique `i` in 1..255 with `gmul(a, i) = 1`. -/
def Obligations.FieldInverseIsTheUniqueInverse : Prop :=
  ginv 0 = 0 ∧
    ∀ a, a ≠ 0 → ginv a ≠ 0 ∧ gmul a (ginv a) = 1 ∧ ∀ i, i ≠ 0 → gmul a i = 1 → i = ginv a

/-- R105: all three methods find `ginv(a)` for every `a`, and `METH` changes nothing that a command leaves. -/
def Obligations.InversionMethodsAgree : Prop :=
  (∀ (m : Method) (a : Byte), invBy m a = (true, ginv a)) ∧
  (∀ (a b : Byte) (s : State),
    exec (.invEea a b) s = exec (.invScan a b) s ∧ exec (.invFermat a b) s = exec (.invScan a b) s ∧
      exec (.genEea a b) s = exec (.genScan a b) s ∧ exec (.genFermat a b) s = exec (.genScan a b) s)

/-- R107: `ginv` is a bijection, its own inverse, gives `gmul(a, ginv(a)) = 1` for nonzero `a`, and fixes exactly 0 and 1. -/
def Obligations.FieldInverseProperties : Prop :=
  Function.Bijective ginv ∧ (∀ a, ginv (ginv a) = a) ∧ (∀ a, a ≠ 0 → gmul a (ginv a) = 1) ∧
    ∀ a, ginv a = a ↔ a = 0 ∨ a = 1

/-! ### The affine unit and the S-box -/

/-- R120, R121: output bit `i` is the XOR of five input bits and the constant bit, the constant bits being 1,1,0,0,0,1,1,0. -/
def Obligations.AffineOutputBits : Prop :=
  (∀ (x : Byte) (i : Nat), i < 8 →
    (affine x).getLsbD i =
      (x.getLsbD i ^^ x.getLsbD ((i + 4) % 8) ^^ x.getLsbD ((i + 5) % 8) ^^ x.getLsbD ((i + 6) % 8)
        ^^ x.getLsbD ((i + 7) % 8) ^^ (0x63#8).getLsbD i)) ∧
  (List.range 8).map (affc.getLsbD ·) = [true, true, false, false, false, true, true, false]

/-- R122: the matrix rows, the rotations and the columns give the transform of R120 for all inputs, and the columns are the
images of the unit vectors under its linear part. -/
def Obligations.AffineFormsAgree : Prop :=
  (∀ x, affineByRows x = affine x ∧ affineByRotations x = affine x ∧ affineByColumns x = affine x) ∧
    (List.range 8).map (fun j => affine (1#8 <<< j) ^^^ 0x63)
      = [0x1F, 0x3E, 0x7C, 0xF8, 0xF1, 0xE3, 0xC7, 0x8F]

/-- R124: `affine` is a bijection, and affine over XOR. -/
def Obligations.AffineIsABijectionAndAffine : Prop :=
  Function.Bijective affine ∧ ∀ a b, affine (a ^^^ b) = affine a ^^^ affine b ^^^ 0x63

/-- R131: `S` is a bijection with the three known values, without a fixed point and without an opposite fixed point. -/
def Obligations.SboxProperties : Prop :=
  Function.Bijective sboxFn ∧
  (sboxFn 0x00 = 0x63 ∧ sboxFn 0x01 = 0x7C ∧ sboxFn 0x53 = 0xED) ∧
  ∀ x, sboxFn x ≠ x ∧ sboxFn x ≠ x ^^^ 0xFF

/-- R28, R130: the ROM's bytes, as spec/95_test_vectors.md lists them, are `affine(ginv(x))`. -/
def Obligations.RomHoldsTheSbox : Prop :=
  sromBytes.length = 256 ∧ ∀ x, srom x = affine (ginv x)

/-- R138: after any `GEN`, `SBOX x` returns what `TABLE[x]` then holds, whatever the methods and operand bytes. -/
def Obligations.SboxReadsWhatGenWrites : Prop :=
  ∀ (i : Instr) (a b x c : Byte) (s : State),
    i = .genScan a b ∨ i = .genEea a b ∨ i = .genFermat a b →
    ∃ t u v, exec i s = .next t ∧ exec (.sbox x c) t = .next u ∧
      Memory.read t.table x.toNat = some v ∧ u.result = v.setWidth 9

/-! ### Differential uniformity -/

/-- R140, R141: `H_α[d]` is the number of `x` with `T[x] ^ T[x ^ α] = d`; each histogram has 256 buckets, and its counts sum to 256. -/
def Obligations.HistogramCountsSumTo256 : Prop :=
  ∀ (T : Byte → Byte) (α : Byte),
    (∀ d : Byte, hist T α d = ((Finset.univ : Finset (Fin 256)).filter fun x =>
      T (BitVec.ofFin x) ^^^ T (BitVec.ofFin x ^^^ α) = d).card) ∧
    (allBytes.map (hist T α)).length = 256 ∧ (allBytes.map (hist T α)).sum = 256

/-- R142, R144: `du` is attained at some nonzero `α`, and no count of a nonzero `α` exceeds it. -/
def Obligations.UniformityIsTheLargestCount : Prop :=
  ∀ T : Byte → Byte,
    (∃ α d : Byte, α ≠ 0 ∧ hist T α d = du T) ∧ ∀ α d : Byte, α ≠ 0 → hist T α d ≤ du T

/-- R143: `du(T)` is even, from 2 to 256; every count of a nonzero `α` is even; and `du(T) = 256` exactly when, for some nonzero `α`,
the difference does not depend on `x`. -/
def Obligations.UniformityRange : Prop :=
  ∀ T : Byte → Byte,
    du T % 2 = 0 ∧ 2 ≤ du T ∧ du T ≤ 256 ∧
    (∀ α d : Byte, α ≠ 0 → hist T α d % 2 = 0) ∧
    (du T = 256 ↔ ∃ α : Byte, α ≠ 0 ∧ ∀ x y : Byte, delta T α x = delta T α y)

/-- R30, R146: the bank of 9-bit counters computes `du(T)` for every table, and no counter overflows on the way: after the
first `n` inputs of an α, counted from a cleared bank, each 9-bit counter is the number of them in its bucket, at most 256. -/
def Obligations.CounterBankComputesUniformity : Prop :=
  ∀ T : Byte → Byte,
    (duByBank T).toNat = du T ∧
    ∀ (bank : DuBank) (α d : Byte) (n : Nat),
      let counted := ((allBytes.take n).map (delta T α)).foldl bankIncrement
        { bank with counters := List.replicate 256 0 }
      let count := (allBytes.take n).countP fun x => delta T α x == d
      counted.counters[d.toNat]?.map BitVec.toNat = some count ∧ count ≤ 256

/-- R148: the uniformity of the AES S-box is 4, reached in bucket 0x1F of α = 0x01, and that of the identity is 256. -/
def Obligations.UniformityOfTheSboxAndTheIdentity : Prop :=
  du (fun x => affine (ginv x)) = 4 ∧ hist (fun x => affine (ginv x)) 0x01 0x1F = 4 ∧
    du (fun x => x) = 256 ∧ ∀ α, hist (fun x => x) α α = 256

/-- R147, R148: the document's end-to-end use. After `GEN.SCAN`, from any state, `DU` returns 4. -/
def Obligations.GenThenDuReturnsFour : Prop :=
  ∀ (a b c d : Byte) (s : State),
    ∃ t, exec (.genScan a b) s = .next t ∧
      exec (.du c d) t = .next { t with
        result := 4
        status := { t.status with busy := false, done := true } }

/-! ### Whole-machine rules -/

/-- The invariant holds of a powered-up machine (R180), wherever the window is and whatever is to come. -/
def Obligations.PowerUpMeetsTheInvariant : Prop :=
  ∀ (basePage : Nat) (events : List Event), StateInv (poweredUp basePage events)

/-- R21, R22, R29, R161, R166: every step keeps the invariant: `BUSY` excludes `FATAL` and `DONE`, the latch equals `LASTCMD` while
`BUSY`, `LASTCMD` is a legal word, `ERR` is at most 4, and `TABLE` is in canonical form. -/
def Obligations.EveryStepKeepsTheInvariant : Prop :=
  ∀ s s' : State, StateInv s → step s = .next s' → StateInv s'

/-- R168: `FATAL` stays 0 and `ERR = 4` never occurs, step by step and on every run from power-up. -/
def Obligations.FatalIsUnreachable : Prop :=
  (∀ s s' : State, s.status.fatal = false → s.status.err ≠ 4 → step s = .next s' →
    s'.status.fatal = false ∧ s'.status.err ≠ 4) ∧
  ∀ s : State, Reachable s → s.status.fatal = false ∧ s.status.err ≠ 4

/-- R42, R44, R83: from a state that meets the invariant, a step never stops when the event due is an admitted access to the window,
a reset, or the engine's turn while `BUSY = 1`. The other cases are the model's choice and no rule's: that there is a step when no
event is due, and that the engine's turn passes while `BUSY = 0` (log entry 3; by R83 the idle engine has no step), and that an
access outside the window is a step (log entry 9). -/
def Obligations.AdmittedEventsNeverStop : Prop :=
  ∀ s : State, StateInv s → (∀ e ∈ s.events.head?, e.admitted s.basePage = true) →
    ∃ s', step s = .next s'

/-- R12, R83: an accepted command completes. With admitted events and no reset to come, after at most one step more than there are
events the command is over, with `DONE` set and `LASTCMD` still its word. That events are a finite list, with the engine's turn
after the last of them, is the model's choice (log entry 3), and so is the step of an access outside the window (log entry 9). -/
def Obligations.AcceptedCommandCompletes : Prop :=
  ∀ s : State, StateInv s → s.status.busy = true →
    (∀ e ∈ s.events, e.admitted s.basePage = true ∧ e ≠ .reset) →
    ∃ k s', k ≤ s.events.length + 1 ∧ steps k s = .next s' ∧
      s'.status.busy = false ∧ s'.status.done = true ∧ s'.lastcmd = s.lastcmd

/-- R23, R46, R52, R81, R85, R164: no host access disturbs the command in flight: the latch, `TABLE`, `RESULT`, `LASTCMD`, `BUSY`, `DONE` and
`FATAL` stay as they are. -/
def Obligations.HostCannotDisturbTheCommandInFlight : Prop :=
  ∀ (s s' : State) (a : Access) (rest : List Event),
    s.status.busy = true → s.events = .access a :: rest → step s = .next s' →
    s'.ifl = s.ifl ∧ s'.table = s.table ∧ s'.result = s.result ∧ s'.lastcmd = s.lastcmd ∧
      s'.status = { s.status with err := s'.status.err }

/-- R162: only a host write to the window or a reset changes `ERR`: no read, no completion and no idle step does. -/
def Obligations.OnlyWritesAndResetChangeErr : Prop :=
  ∀ s s' : State,
    s.events.head? ≠ some .reset →
    (∀ a w, s.events.head? = some (.access a) → a.transfer ≠ .write w) →
    step s = .next s' → s'.status.err = s.status.err

/-- R167: while `FATAL = 1` no command is accepted, and only reset clears `FATAL`; `LASTCMD` and `RESULT` stand. -/
def Obligations.HaltedUntilReset : Prop :=
  ∀ s s' : State, StateInv s → s.status.fatal = true → s.events.head? ≠ some .reset →
    step s = .next s' →
    s'.status.fatal = true ∧ s'.status.busy = false ∧ s'.lastcmd = s.lastcmd ∧ s'.result = s.result

/-- R193: from a state that meets the invariant, with admitted events to come, the run comes to its end after at most one step more
than there are events: the first state with `BUSY = 0` and no host access to come, whatever engine turns and resets are. The
observation is that of this state, and turns and resets appended after the last event of a run that leaves the core idle change
nothing of it. That the completion still owed after the last event is the next step, and that an idle turn and an access outside the
window are steps, is the model's choice (log entries 3 and 9); where the end is is read from R193 as log entry 16 says. -/
def Obligations.RunEndsAtLastAccessWithNothingInFlight : Prop :=
  (∀ s : State, StateInv s → (∀ e ∈ s.events, e.admitted s.basePage = true) →
    ∃ k t, k ≤ s.events.length + 1 ∧ steps k s = .next t ∧
      t.status.busy = false ∧ (∀ e ∈ t.events, e = .engine ∨ e = .reset) ∧
      (∀ j < k, ∃ u, steps j s = .next u ∧ (u.status.busy = true ∨ ∃ a, .access a ∈ u.events)) ∧
      runObservation s = some (observe t)) ∧
  ∀ (s t : State) (tail : List Event),
    steps s.events.length s = .next t → t.status.busy = false → (∀ e ∈ tail, e = .engine ∨ e = .reset) →
    runObservation { s with events := s.events ++ tail } = runObservation s

/-- R29, U10: the value of `IFL` while `BUSY = 0` is irrelevant. Every step keeps the relation of two states that differ at most in
`IFL`, and in it only while `BUSY = 0`, or stops alike in both; related states are observed alike. So two runs from idle states that
differ only in `IFL` are observed alike after any number of steps. -/
def Obligations.IdleLatchIsUnobservable : Prop :=
  (∀ s u : State, SameButIdleLatch s u → observe u = observe s ∧ AlikeButIdleLatch (step s) (step u)) ∧
  ∀ (s : State) (latch : Word) (k : Nat),
    s.status.busy = false →
    observedAfter (steps k { s with ifl := latch }) = observedAfter (steps k s)
end

