-- ==== Sys2Proof/Laws/Memory.lean ====
section
/-! SUPPORT. The laws of the table RAM: a read after a write, and the canonical form, which every operation keeps. -/

namespace Sys2Proof.Machine

/-! ### Bytes -/

theorem mem_allBytes (x : Byte) : x ∈ allBytes :=
  List.mem_map.mpr ⟨x.toNat, List.mem_range.mpr x.isLt, by simp⟩

/-! ### Reads after writes -/

@[simp] theorem Memory.read_nil (i : Nat) : Memory.read [] i = none := rfl

theorem Memory.read_write_same (t : List Host.Cell) (i : Nat) (v : Byte) :
    Memory.read (Memory.write t i v) i = some v := by
  induction t with
  | nil => simp [Memory.write, Memory.read]
  | cons c rest ih =>
    obtain ⟨j, u⟩ := c
    unfold Memory.write
    split
    · simp [Memory.read]
    · split
      · simp [Memory.read]
      · rename_i hne
        simp [Memory.read, Ne.symm hne, ih]

theorem Memory.read_write_other (t : List Host.Cell) {i j : Nat} (v : Byte) (h : j ≠ i) :
    Memory.read (Memory.write t i v) j = Memory.read t j := by
  induction t with
  | nil => simp [Memory.write, Memory.read, Ne.symm h]
  | cons c rest ih =>
    obtain ⟨k, u⟩ := c
    unfold Memory.write
    split
    · simp [Memory.read, Ne.symm h]
    · split
      · rename_i hik
        subst hik
        simp [Memory.read, Ne.symm h]
      · simp only [Memory.read, ih]

/-! ### The canonical form -/

theorem Memory.wf_nil : Memory.wf [] := ⟨List.Pairwise.nil, fun _ h => nomatch h⟩

/-- The entries after a write are the written one and old ones. -/
theorem Memory.mem_write {t : List Host.Cell} {i : Nat} {v : Byte} {c : Host.Cell}
    (h : c ∈ Memory.write t i v) : c = (i, v) ∨ c ∈ t := by
  induction t with
  | nil => simpa [Memory.write] using h
  | cons d rest ih =>
    obtain ⟨j, u⟩ := d
    unfold Memory.write at h
    split at h
    · simpa using h
    · split at h
      · rcases List.mem_cons.mp h with h | h
        · exact .inl h
        · exact .inr (List.mem_cons_of_mem _ h)
      · rcases List.mem_cons.mp h with h | h
        · exact .inr (h ▸ List.mem_cons_self)
        · exact (ih h).imp id (List.mem_cons_of_mem _)

/-- A write keeps the canonical form. -/
theorem Memory.wf_write {t : List Host.Cell} (ht : Memory.wf t) {i : Nat} (hi : i < 256) (v : Byte) :
    Memory.wf (Memory.write t i v) := by
  refine ⟨?_, fun c hc => (Memory.mem_write hc).elim (fun h => h ▸ hi) (ht.2 c)⟩
  obtain ⟨ht, -⟩ := ht
  induction t with
  | nil => simp [Memory.write]
  | cons d rest ih =>
    obtain ⟨j, u⟩ := d
    obtain ⟨hj, hr⟩ := List.pairwise_cons.mp ht
    unfold Memory.write
    split
    · rename_i hlt
      exact List.pairwise_cons.mpr ⟨fun c hc => by
        rcases List.mem_cons.mp hc with h | h
        · exact h ▸ hlt
        · exact hlt.trans (hj c h), ht⟩
    · split
      · rename_i heq
        exact List.pairwise_cons.mpr ⟨fun c hc => heq ▸ hj c hc, hr⟩
      · exact List.pairwise_cons.mpr ⟨fun c hc => by
          rcases Memory.mem_write hc with h | h
          · subst h
            simp only
            omega
          · exact hj c h, ih hr⟩

/-- A table that `GEN` writes is in canonical form. -/
theorem Memory.wf_ofFn (f : Byte → Byte) : Memory.wf (Memory.ofFn f) := by
  constructor
  · have h : (List.range 256).Pairwise (fun m n => m % 256 < n % 256) :=
      List.pairwise_lt_range.imp_of_mem fun hm hn hlt => by
        rw [Nat.mod_eq_of_lt (List.mem_range.mp hm), Nat.mod_eq_of_lt (List.mem_range.mp hn)]
        exact hlt
    unfold Memory.ofFn allBytes
    rw [List.map_map]
    exact List.pairwise_map.mpr (by simpa using h)
  · simp only [Memory.ofFn, List.mem_map]
    rintro c ⟨x, -, rfl⟩
    exact x.isLt

/-- What a table that `GEN` writes holds. -/
theorem Memory.read_ofFn (f : Byte → Byte) (x : Byte) :
    Memory.read (Memory.ofFn f) x.toNat = some (f x) := by
  have key : ∀ l : List Byte, x ∈ l →
      Memory.read (l.map fun y => (y.toNat, f y)) x.toNat = some (f x) := by
    intro l
    induction l with
    | nil => simp
    | cons y rest ih =>
      intro hx
      by_cases hy : y = x
      · simp [Memory.read, hy]
      · have hne : y.toNat ≠ x.toNat := fun h => hy (BitVec.eq_of_toNat_eq h)
        simpa [Memory.read, hne] using ih ((List.mem_cons.mp hx).resolve_left (Ne.symm hy))
  exact key allBytes (mem_allBytes x)

theorem Memory.written_ofFn (f : Byte → Byte) (x : Byte) :
    Memory.written (Memory.ofFn f) x = true := by
  simp [Memory.written, Memory.read_ofFn]

theorem Memory.allWritten_ofFn (f : Byte → Byte) : Memory.allWritten (Memory.ofFn f) = true :=
  List.all_eq_true.mpr fun x _ => Memory.written_ofFn f x

theorem Memory.toFn_ofFn (f : Byte → Byte) : Memory.toFn (Memory.ofFn f) = f :=
  funext fun x => by simp [Memory.toFn, Memory.read_ofFn]

end Sys2Proof.Machine
end

