-- ==== Sys2Proof/Laws/State.lean ====
section
/-! SUPPORT. One lemma for each field of State under each plain update of Ops, and for each field of `STATUS` under each of
its updates, so that no proof unfolds a record update. -/

namespace Sys2Proof.Machine

/-! ### `Status.raise` -/

@[simp] theorem Status.raise_busy (st : Status) (code : BitVec 3) : (st.raise code).busy = st.busy := rfl
@[simp] theorem Status.raise_done (st : Status) (code : BitVec 3) : (st.raise code).done = st.done := rfl
@[simp] theorem Status.raise_fatal (st : Status) (code : BitVec 3) : (st.raise code).fatal = st.fatal := rfl
@[simp] theorem Status.raise_err (st : Status) (code : BitVec 3) : (st.raise code).err = code := rfl

/-! ### `Status.accepted` -/

@[simp] theorem Status.accepted_busy (st : Status) : st.accepted.busy = true := rfl
@[simp] theorem Status.accepted_done (st : Status) : st.accepted.done = false := rfl
@[simp] theorem Status.accepted_fatal (st : Status) : st.accepted.fatal = st.fatal := rfl
@[simp] theorem Status.accepted_err (st : Status) : st.accepted.err = errNone := rfl

/-! ### `Status.completed` -/

@[simp] theorem Status.completed_busy (st : Status) : st.completed.busy = false := rfl
@[simp] theorem Status.completed_done (st : Status) : st.completed.done = true := rfl
@[simp] theorem Status.completed_fatal (st : Status) : st.completed.fatal = st.fatal := rfl
@[simp] theorem Status.completed_err (st : Status) : st.completed.err = st.err := rfl

/-! ### `Status.aborted` -/

@[simp] theorem Status.aborted_busy (st : Status) : st.aborted.busy = false := rfl
@[simp] theorem Status.aborted_done (st : Status) : st.aborted.done = false := rfl
@[simp] theorem Status.aborted_fatal (st : Status) : st.aborted.fatal = true := rfl
@[simp] theorem Status.aborted_err (st : Status) : st.aborted.err = st.err := rfl

/-! ### `raiseError` -/

@[simp] theorem raiseError_lastcmd (code : BitVec 3) (s : State) : (raiseError code s).lastcmd = s.lastcmd := rfl
@[simp] theorem raiseError_status (code : BitVec 3) (s : State) : (raiseError code s).status = s.status.raise code := rfl
@[simp] theorem raiseError_result (code : BitVec 3) (s : State) : (raiseError code s).result = s.result := rfl
@[simp] theorem raiseError_ifl (code : BitVec 3) (s : State) : (raiseError code s).ifl = s.ifl := rfl
@[simp] theorem raiseError_table (code : BitVec 3) (s : State) : (raiseError code s).table = s.table := rfl
@[simp] theorem raiseError_basePage (code : BitVec 3) (s : State) : (raiseError code s).basePage = s.basePage := rfl
@[simp] theorem raiseError_draws (code : BitVec 3) (s : State) : (raiseError code s).draws = s.draws := rfl
@[simp] theorem raiseError_readLog (code : BitVec 3) (s : State) : (raiseError code s).readLog = s.readLog := rfl
@[simp] theorem raiseError_events (code : BitVec 3) (s : State) : (raiseError code s).events = s.events := rfl

/-! ### `acceptCommand` -/

@[simp] theorem acceptCommand_lastcmd (w : Word) (s : State) : (acceptCommand w s).lastcmd = w := rfl
@[simp] theorem acceptCommand_status (w : Word) (s : State) : (acceptCommand w s).status = s.status.accepted := rfl
@[simp] theorem acceptCommand_result (w : Word) (s : State) : (acceptCommand w s).result = s.result := rfl
@[simp] theorem acceptCommand_ifl (w : Word) (s : State) : (acceptCommand w s).ifl = w := rfl
@[simp] theorem acceptCommand_table (w : Word) (s : State) : (acceptCommand w s).table = s.table := rfl
@[simp] theorem acceptCommand_basePage (w : Word) (s : State) : (acceptCommand w s).basePage = s.basePage := rfl
@[simp] theorem acceptCommand_draws (w : Word) (s : State) : (acceptCommand w s).draws = s.draws := rfl
@[simp] theorem acceptCommand_readLog (w : Word) (s : State) : (acceptCommand w s).readLog = s.readLog := rfl
@[simp] theorem acceptCommand_events (w : Word) (s : State) : (acceptCommand w s).events = s.events := rfl

/-! ### `recordRead` -/

@[simp] theorem recordRead_lastcmd (v : Word) (s : State) : (recordRead v s).lastcmd = s.lastcmd := rfl
@[simp] theorem recordRead_status (v : Word) (s : State) : (recordRead v s).status = s.status := rfl
@[simp] theorem recordRead_result (v : Word) (s : State) : (recordRead v s).result = s.result := rfl
@[simp] theorem recordRead_ifl (v : Word) (s : State) : (recordRead v s).ifl = s.ifl := rfl
@[simp] theorem recordRead_table (v : Word) (s : State) : (recordRead v s).table = s.table := rfl
@[simp] theorem recordRead_basePage (v : Word) (s : State) : (recordRead v s).basePage = s.basePage := rfl
@[simp] theorem recordRead_draws (v : Word) (s : State) : (recordRead v s).draws = s.draws := rfl
@[simp] theorem recordRead_readLog (v : Word) (s : State) : (recordRead v s).readLog = v :: s.readLog := rfl
@[simp] theorem recordRead_events (v : Word) (s : State) : (recordRead v s).events = s.events := rfl

/-! ### `drawByte` -/

@[simp] theorem drawByte_lastcmd (s : State) : ((drawByte s).2).lastcmd = s.lastcmd := rfl
@[simp] theorem drawByte_status (s : State) : ((drawByte s).2).status = s.status := rfl
@[simp] theorem drawByte_result (s : State) : ((drawByte s).2).result = s.result := rfl
@[simp] theorem drawByte_ifl (s : State) : ((drawByte s).2).ifl = s.ifl := rfl
@[simp] theorem drawByte_table (s : State) : ((drawByte s).2).table = s.table := rfl
@[simp] theorem drawByte_basePage (s : State) : ((drawByte s).2).basePage = s.basePage := rfl
@[simp] theorem drawByte_draws (s : State) : ((drawByte s).2).draws = s.draws + 1 := rfl
@[simp] theorem drawByte_readLog (s : State) : ((drawByte s).2).readLog = s.readLog := rfl
@[simp] theorem drawByte_events (s : State) : ((drawByte s).2).events = s.events := rfl
@[simp] theorem drawByte_value (s : State) : (drawByte s).1 = Config.drawByte s.draws := rfl

/-! ### `drawNine` -/

@[simp] theorem drawNine_lastcmd (s : State) : ((drawNine s).2).lastcmd = s.lastcmd := rfl
@[simp] theorem drawNine_status (s : State) : ((drawNine s).2).status = s.status := rfl
@[simp] theorem drawNine_result (s : State) : ((drawNine s).2).result = s.result := rfl
@[simp] theorem drawNine_ifl (s : State) : ((drawNine s).2).ifl = s.ifl := rfl
@[simp] theorem drawNine_table (s : State) : ((drawNine s).2).table = s.table := rfl
@[simp] theorem drawNine_basePage (s : State) : ((drawNine s).2).basePage = s.basePage := rfl
@[simp] theorem drawNine_draws (s : State) : ((drawNine s).2).draws = s.draws + 1 := rfl
@[simp] theorem drawNine_readLog (s : State) : ((drawNine s).2).readLog = s.readLog := rfl
@[simp] theorem drawNine_events (s : State) : ((drawNine s).2).events = s.events := rfl
@[simp] theorem drawNine_value (s : State) : (drawNine s).1 = Config.drawNine s.draws := rfl

/-! ### `applyReset` -/

@[simp] theorem applyReset_lastcmd (s : State) : (applyReset s).lastcmd = 0 := rfl
@[simp] theorem applyReset_status (s : State) : (applyReset s).status = Status.reset := rfl
@[simp] theorem applyReset_result (s : State) : (applyReset s).result = 0 := rfl
@[simp] theorem applyReset_ifl (s : State) : (applyReset s).ifl = 0 := rfl
@[simp] theorem applyReset_table (s : State) : (applyReset s).table = [] := rfl
@[simp] theorem applyReset_basePage (s : State) : (applyReset s).basePage = s.basePage := rfl
@[simp] theorem applyReset_draws (s : State) : (applyReset s).draws = s.draws := rfl
@[simp] theorem applyReset_readLog (s : State) : (applyReset s).readLog = s.readLog := rfl
@[simp] theorem applyReset_events (s : State) : (applyReset s).events = s.events := rfl

/-! ### The reset state -/

@[simp] theorem reset_lastcmd : State.reset.lastcmd = 0 := rfl
@[simp] theorem reset_status : State.reset.status = Status.reset := rfl
@[simp] theorem reset_result : State.reset.result = 0 := rfl
@[simp] theorem reset_ifl : State.reset.ifl = 0 := rfl
@[simp] theorem reset_table : State.reset.table = [] := rfl
@[simp] theorem Status.reset_busy : Status.reset.busy = false := rfl
@[simp] theorem Status.reset_done : Status.reset.done = false := rfl
@[simp] theorem Status.reset_fatal : Status.reset.fatal = false := rfl
@[simp] theorem Status.reset_err : Status.reset.err = 0 := rfl

end Sys2Proof.Machine
end

