-- ==== Sys2Proof/Laws/Ops.lean ====
section
/-! SUPPORT. For each shared operation, once, everything it can do. -/

namespace Sys2Proof.Machine

/-! ### Presenting a command (R80, R81) -/

theorem presentCommand_halted {s : State} (w : Word) (h : s.status.fatal = true) :
    presentCommand w s = raiseError errHalted s := by
  simp [presentCommand, h]

theorem presentCommand_busy {s : State} (w : Word) (hf : s.status.fatal = false)
    (hb : s.status.busy = true) : presentCommand w s = raiseError errCmdBusy s := by
  simp [presentCommand, hf, hb]

theorem presentCommand_accept {s : State} {w : Word} (hf : s.status.fatal = false)
    (hb : s.status.busy = false) (hl : legal w = true) :
    presentCommand w s = acceptCommand w s := by
  simp [presentCommand, hf, hb, hl]

theorem presentCommand_illegal {s : State} {w : Word} (hf : s.status.fatal = false)
    (hb : s.status.busy = false) (hl : legal w = false) :
    presentCommand w s = raiseError errIllegal s := by
  simp [presentCommand, hf, hb, hl]

/-- A presented command is accepted in an idle state, or a code 1, 2 or 4 is recorded and nothing else happens. -/
theorem presentCommand_cases (w : Word) (s : State) :
    (s.status.fatal = false ∧ s.status.busy = false ∧ legal w = true ∧
        presentCommand w s = acceptCommand w s) ∨
      ∃ code : BitVec 3, code.toNat ≤ 4 ∧ presentCommand w s = raiseError code s := by
  unfold presentCommand
  split
  · exact .inr ⟨_, by decide, rfl⟩
  · split
    · exact .inr ⟨_, by decide, rfl⟩
    · split
      · rename_i hf hb hl
        exact .inl ⟨by simpa using hf, by simpa using hb, hl, rfl⟩
      · exact .inr ⟨_, by decide, rfl⟩

/-! ### Completion and abort (R84, R166) -/

theorem completeCommand_ok {r : CommandResult} (s : State) (h : r.ok = true) :
    completeCommand r s =
      { s with
        status := s.status.completed
        result := r.res.getD s.result
        table := r.tbl.getD s.table } := by
  simp [completeCommand, h]

theorem completeCommand_abort {r : CommandResult} (s : State) (h : r.ok = false) :
    completeCommand r s = abortCommand s := by
  simp [completeCommand, h]

@[simp] theorem completeCommand_lastcmd (r : CommandResult) (s : State) :
    (completeCommand r s).lastcmd = s.lastcmd := by
  unfold completeCommand; split <;> rfl

@[simp] theorem completeCommand_ifl (r : CommandResult) (s : State) :
    (completeCommand r s).ifl = s.ifl := by
  unfold completeCommand; split <;> rfl

@[simp] theorem completeCommand_basePage (r : CommandResult) (s : State) :
    (completeCommand r s).basePage = s.basePage := by
  unfold completeCommand; split <;> rfl

@[simp] theorem completeCommand_draws (r : CommandResult) (s : State) :
    (completeCommand r s).draws = s.draws := by
  unfold completeCommand; split <;> rfl

@[simp] theorem completeCommand_readLog (r : CommandResult) (s : State) :
    (completeCommand r s).readLog = s.readLog := by
  unfold completeCommand; split <;> rfl

@[simp] theorem completeCommand_events (r : CommandResult) (s : State) :
    (completeCommand r s).events = s.events := by
  unfold completeCommand; split <;> rfl

/-- Completed or aborted, no command is in flight afterwards. -/
@[simp] theorem completeCommand_busy (r : CommandResult) (s : State) :
    (completeCommand r s).status.busy = false := by
  unfold completeCommand; split <;> rfl

/-- Completed or aborted, the error code stands (R162). -/
@[simp] theorem completeCommand_err (r : CommandResult) (s : State) :
    (completeCommand r s).status.err = s.status.err := by
  unfold completeCommand; split <;> rfl

/-- The table after a completion step: as before, the command's own, or (after an aborted `GEN`) unwritten. -/
theorem completeCommand_table_cases (r : CommandResult) (s : State) :
    (completeCommand r s).table = s.table ∨ r.tbl = some (completeCommand r s).table ∨
      (completeCommand r s).table = [] := by
  unfold completeCommand
  split
  · cases h : r.tbl with
    | none => exact .inl (by simp)
    | some t => exact .inr (.inl (by simp))
  · unfold abortCommand
    split
    · exact .inr (.inr rfl)
    · exact .inl rfl

/-! ### Reads (R45) -/

/-- A table read takes one draw or leaves the state as it is. -/
theorem readTable_state (i : Byte) (s : State) :
    (readTable i s).2 = s ∨ (readTable i s).2 = (drawByte s).2 := by
  unfold readTable
  split
  · exact .inr rfl
  · split
    · exact .inl rfl
    · exact .inr rfl

theorem readReg_state (r : Reg) (s : State) :
    (readReg r s).2 = s ∨ (readReg r s).2 = (drawByte s).2 := by
  cases r with
  | table i => exact readTable_state i s
  | _ => exact .inl rfl

/-- A host read changes the read log, and at most the draw counter. -/
theorem hostRead_eq (r : Reg) (s : State) : ∃ v n,
    hostRead r s = { s with readLog := v :: s.readLog, draws := n } := by
  rcases readReg_state r s with h | h <;>
    exact ⟨_, _, by unfold hostRead; rw [h]; rfl⟩

/-- The value that a read of a written entry gives, and that it takes no draw. -/
theorem readTable_written {i : Byte} {s : State} {v : Byte}
    (hb : (s.status.busy && usesTable s.ifl) = false) (hv : Memory.read s.table i.toNat = some v) :
    readTable i s = (v, s) := by
  simp [readTable, hb, hv]

/-! ### Writes (R46) -/

/-- A host write is dropped with a code, ignored, accepted as a command, or stored in the table. -/
theorem hostWrite_cases (r : Reg) (w : Word) (s : State) :
    hostWrite r w s = s ∨
      (∃ code : BitVec 3, code.toNat ≤ 4 ∧ hostWrite r w s = raiseError code s) ∨
      (s.status.fatal = false ∧ s.status.busy = false ∧ legal w = true ∧
        hostWrite r w s = acceptCommand w s) ∨
      ∃ i : Byte, s.status.busy = false ∧
        hostWrite r w s = { s with table := Memory.write s.table i.toNat (tableData w) } := by
  cases r with
  | cmd =>
    rcases presentCommand_cases w s with h | h
    · exact .inr (.inr (.inl h))
    · exact .inr (.inl h)
  | table i =>
    cases hb : s.status.busy with
    | true => exact .inr (.inl ⟨errTblBusy, by decide, by simp [hostWrite, writeTable, hb]⟩)
    | false => exact .inr (.inr (.inr ⟨i, rfl, by simp [hostWrite, writeTable, hb]⟩))
  | _ => exact .inl rfl

/-! ### Accesses -/

/-- An access answers a next state that is a read's, a write's or (outside the window) the same. -/
theorem hostAccess_cases {a : Access} {s s' : State} (h : hostAccess a s = .next s') :
    s' = s ∨ (∃ r, s' = hostRead r s) ∨ ∃ r w, s' = hostWrite r w s := by
  unfold hostAccess at h
  split at h
  · exact .inl (Host.Outcome.next.inj h).symm
  · split at h
    · have h' := (Host.Outcome.next.inj h).symm
      unfold accessReg at h'
      split at h'
      · exact .inr (.inl ⟨_, h'⟩)
      · exact .inr (.inr ⟨_, _, h'⟩)
    · exact nomatch h

end Sys2Proof.Machine
end

