-- ==== Sys2Proof/Laws/PerInstr.lean ====
section
/-! SUPPORT. A law of every command as syntax: its word carries one of the eleven `match` values of the opcode table under
the table's mask (R67), whatever its operand bytes are. -/

namespace Sys2Proof.Laws

/-- Under the mask of the opcode table a word of R70's shape is its low byte. -/
theorem commandWord_masked (b a low : Byte) : commandWord b a low &&& legalMask = low.setWidth 32 := by
  have hm : ∀ n < 32, legalMask.getLsbD n = (decide (n < 8) || decide (24 ≤ n)) := by decide
  apply BitVec.eq_of_getLsbD_eq
  intro n hn
  rw [BitVec.getLsbD_and, hm n hn]
  by_cases h8 : n < 8
  · simp [commandWord, h8, hn, show n < 16 by omega]
  · by_cases h24 : 24 ≤ n
    · have ha : a.getLsbD (n - 8) = false := BitVec.getLsbD_of_ge _ _ (by omega)
      have hb : b.getLsbD (n - 16) = false := BitVec.getLsbD_of_ge _ _ (by omega)
      have hl : low.getLsbD n = false := BitVec.getLsbD_of_ge _ _ (by omega)
      simp [commandWord, hn, h8, ha, hb, hl]
    · have hl : low.getLsbD n = false := BitVec.getLsbD_of_ge _ _ (by omega)
      simp [h8, h24, hl]

/-- The word of a command matches a row of the opcode table. -/
def TableMatch.Statement (i : Instr) : Prop := encode i &&& legalMask ∈ legalMatches

theorem TableMatch.nop (a b : Byte) : TableMatch.Statement (.nop a b) := by
  rw [Statement, encode, commandWord_masked]; decide
theorem TableMatch.mul (a b : Byte) : TableMatch.Statement (.mul a b) := by
  rw [Statement, encode, commandWord_masked]; decide
theorem TableMatch.invScan (a b : Byte) : TableMatch.Statement (.invScan a b) := by
  rw [Statement, encode, commandWord_masked]; decide
theorem TableMatch.invEea (a b : Byte) : TableMatch.Statement (.invEea a b) := by
  rw [Statement, encode, commandWord_masked]; decide
theorem TableMatch.invFermat (a b : Byte) : TableMatch.Statement (.invFermat a b) := by
  rw [Statement, encode, commandWord_masked]; decide
theorem TableMatch.aff (a b : Byte) : TableMatch.Statement (.aff a b) := by
  rw [Statement, encode, commandWord_masked]; decide
theorem TableMatch.sbox (a b : Byte) : TableMatch.Statement (.sbox a b) := by
  rw [Statement, encode, commandWord_masked]; decide
theorem TableMatch.genScan (a b : Byte) : TableMatch.Statement (.genScan a b) := by
  rw [Statement, encode, commandWord_masked]; decide
theorem TableMatch.genEea (a b : Byte) : TableMatch.Statement (.genEea a b) := by
  rw [Statement, encode, commandWord_masked]; decide
theorem TableMatch.genFermat (a b : Byte) : TableMatch.Statement (.genFermat a b) := by
  rw [Statement, encode, commandWord_masked]; decide
theorem TableMatch.du (a b : Byte) : TableMatch.Statement (.du a b) := by
  rw [Statement, encode, commandWord_masked]; decide

end Sys2Proof.Laws
end

