-- ==== Sys2Proof/Laws/Run.lean ====
section
/-! SUPPORT. Where a run ends (R193), and what its observation is; states that differ in the latch of an idle core. -/

namespace Sys2Proof.Machine

/-! ### The end of a run (R193) -/

theorem runOver_iff (s : State) :
    runOver s = true ↔ s.status.busy = false ∧ ∀ e ∈ s.events, e.isAccess = false := by
  simp [runOver, and_comm]

/-- A run that is over ends where it is, whatever number of steps is allowed. -/
theorem runEnd_of_over {s : State} (k : Nat) (h : runOver s = true) : runEnd k s = some s := by
  cases k <;> simp [runEnd, h]

/-- A run that is not over ends where the run from its next state ends. -/
theorem runEnd_of_next {s s' : State} (k : Nat) (h : runOver s = false) (hs : step s = .next s') :
    runEnd (k + 1) s = runEnd k s' := by
  simp [runEnd, h, hs]

theorem steps_succ_of_next {s s' : State} (k : Nat) (hs : step s = .next s') : steps (k + 1) s = steps k s' := by
  simp [steps, hs]

/-- Where a run ends, it is over, after at most the steps allowed, and before that it is not over. -/
theorem runEnd_eq_some {k : Nat} {s t : State} (h : runEnd k s = some t) :
    runOver t = true ∧ ∃ n, n ≤ k ∧ steps n s = .next t ∧
      ∀ j < n, ∃ u, steps j s = .next u ∧ runOver u = false := by
  induction k generalizing s with
  | zero =>
    cases ho : runOver s with
    | false => simp [runEnd, ho] at h
    | true =>
      obtain rfl : s = t := by simpa [runEnd, ho] using h
      exact ⟨ho, 0, le_rfl, rfl, nofun⟩
  | succ k ih =>
    cases ho : runOver s with
    | true =>
      obtain rfl : s = t := by simpa [runEnd, ho] using h
      exact ⟨ho, 0, Nat.zero_le _, rfl, nofun⟩
    | false =>
      cases hs : step s with
      | next s' =>
        rw [runEnd_of_next k ho hs] at h
        obtain ⟨ht, n, hn, hst, hb⟩ := ih h
        refine ⟨ht, n + 1, by omega, by rw [steps_succ_of_next n hs, hst], ?_⟩
        intro j hj
        cases j with
        | zero => exact ⟨s, rfl, ho⟩
        | succ j => rw [steps_succ_of_next j hs]; exact hb j (by omega)
      | fault r => simp [runEnd, ho, hs] at h
      | refused r => simp [runEnd, ho, hs] at h

/-- The observation of a run that is over is that of the state it stands in. -/
theorem runObservation_of_over {s : State} (h : runOver s = true) : runObservation s = some (observe s) := by
  simp [runObservation, runEnd_of_over _ h]

/-! ### The latch of an idle core (R29, U10) -/

theorem SameButIdleLatch.refl (s : State) : SameButIdleLatch s s := ⟨rfl, fun _ => rfl⟩

/-- Alike states with a command in flight are one state. -/
theorem SameButIdleLatch.eq_of_busy {s u : State} (h : SameButIdleLatch s u) (hb : s.status.busy = true) : u = s := by
  have := h.1
  rw [h.2 hb] at this
  exact this

/-- The latch of an idle core may be replaced. -/
theorem sameButIdleLatch_of_idle {s : State} (latch : Word) (hb : s.status.busy = false) :
    SameButIdleLatch s { s with ifl := latch } :=
  ⟨rfl, fun h => by simp [hb] at h⟩

end Sys2Proof.Machine
end

