-- ==== Sys2Proof/Laws/Step.lean ====
section
/-! SUPPORT. What a completion step can do, what an engine's turn can do, and what a step can do, each said once. -/

namespace Sys2Proof.Machine

/-- Every command's meaning is one completion step with a result of its own, after at most one draw; a table that it
writes is in canonical form. -/
theorem exec_eq (i : Instr) (s : State) : ∃ r s0,
    exec i s = .next (completeCommand r s0) ∧ (s0 = s ∨ s0 = (drawNine s).2) ∧
      ∀ t, r.tbl = some t → Memory.wf t := by
  have gen : ∀ m t, (genResult m).tbl = some t → Memory.wf t := fun m t h => by
    simp only [genResult, Option.some.injEq] at h
    exact h ▸ Memory.wf_ofFn _
  cases i with
  | nop a b => exact ⟨_, s, rfl, .inl rfl, by simp [nopResult]⟩
  | mul a b => exact ⟨_, s, rfl, .inl rfl, by simp [mulResult]⟩
  | invScan a b => exact ⟨_, s, rfl, .inl rfl, by simp [invResult]⟩
  | invEea a b => exact ⟨_, s, rfl, .inl rfl, by simp [invResult]⟩
  | invFermat a b => exact ⟨_, s, rfl, .inl rfl, by simp [invResult]⟩
  | aff a b => exact ⟨_, s, rfl, .inl rfl, by simp [affResult]⟩
  | sbox a b => exact ⟨_, s, rfl, .inl rfl, by simp [sboxResult]⟩
  | genScan a b => exact ⟨_, s, rfl, .inl rfl, gen _⟩
  | genEea a b => exact ⟨_, s, rfl, .inl rfl, gen _⟩
  | genFermat a b => exact ⟨_, s, rfl, .inl rfl, gen _⟩
  | du a b =>
    refine ⟨_, (duValue s).2, rfl, ?_, by simp [duResult]⟩
    unfold duValue
    split
    · exact .inl rfl
    · exact .inr rfl

/-- An engine's turn completes the command in the latch while `BUSY = 1`, and passes while `BUSY = 0`. -/
theorem engineTurn_cases {s s' : State} (h : engineTurn s = .next s') :
    (s.status.busy = false ∧ s' = s) ∨
      (s.status.busy = true ∧ ∃ i, fetchLatch s = some i ∧ exec i s = .next s') := by
  unfold engineTurn at h
  split at h
  · rename_i hb
    split at h
    · rename_i i hi
      exact .inr ⟨hb, i, hi, h⟩
    · exact nomatch h
  · rename_i hb
    exact .inl ⟨by simpa using hb, (Host.Outcome.next.inj h).symm⟩

/-- What a step can do, of the state with the first event, if there is one, taken off: a host access, an engine's turn, or a
reset. -/
theorem step_cases {s s' : State} (h : step s = .next s') : ∃ s0 : State,
    s0 = { s with events := s.events.tail } ∧
      ((∃ a, hostAccess a s0 = .next s') ∨ engineTurn s0 = .next s' ∨ s' = applyReset s0) := by
  refine ⟨_, rfl, ?_⟩
  unfold step at h
  split at h
  · rename_i he
    have hs : { s with events := s.events.tail } = s := by
      cases s
      cases he
      rfl
    rw [hs]
    exact .inr (.inl h)
  · rename_i e rest he
    rw [he]
    cases e with
    | access a => exact .inl ⟨a, h⟩
    | engine => exact .inr (.inl h)
    | reset => exact .inr (.inr (Host.Outcome.next.inj h).symm)
    | accessDuringReset a => exact nomatch h
    | secondMaster a => exact nomatch h

/-! ### The events to come and the window's place over a step -/

theorem hostAccess_events {a : Access} {s s' : State} (h : hostAccess a s = .next s') :
    s'.events = s.events ∧ s'.basePage = s.basePage := by
  rcases hostAccess_cases h with rfl | ⟨r, rfl⟩ | ⟨r, w, rfl⟩
  · exact ⟨rfl, rfl⟩
  · obtain ⟨v, n, hr⟩ := hostRead_eq r s
    rw [hr]
    exact ⟨rfl, rfl⟩
  · rcases hostWrite_cases r w s with h | ⟨c, -, h⟩ | ⟨-, -, -, h⟩ | ⟨i, -, h⟩ <;> rw [h] <;> exact ⟨rfl, rfl⟩

theorem engineTurn_events {s s' : State} (h : engineTurn s = .next s') :
    s'.events = s.events ∧ s'.basePage = s.basePage := by
  rcases engineTurn_cases h with ⟨-, rfl⟩ | ⟨-, i, -, hx⟩
  · exact ⟨rfl, rfl⟩
  · obtain ⟨r, s0, he, hs, -⟩ := exec_eq i s
    obtain rfl := Host.Outcome.next.inj (hx.symm.trans he)
    rcases hs with rfl | rfl <;> simp

/-- A step takes off one event, if one is due, and puts none; it does not move the window. -/
theorem step_events {s s' : State} (h : step s = .next s') :
    s'.events = s.events.tail ∧ s'.basePage = s.basePage := by
  obtain ⟨s0, rfl, ⟨a, ha⟩ | he | rfl⟩ := step_cases h
  · exact hostAccess_events ha
  · exact engineTurn_events he
  · exact ⟨rfl, rfl⟩

end Sys2Proof.Machine
end

