-- ==== Sys2Proof/Laws/Window.lean ====
section
/-! SUPPORT. The window once decoded: what offset an address has, when an access is admitted, what register an offset names,
and the step that an admitted access is. -/

namespace Sys2Proof.Machine

/-- An address of the window has its offset. -/
theorem windowOffset_of_lt (page : Nat) {off : Nat} (h : off < 0x1000) :
    windowOffset page (baseAddress page + off) = some (BitVec.ofNat 12 off) := by
  unfold windowOffset
  rw [if_pos ⟨by omega, by omega⟩]
  congr 2
  omega

theorem windowOffset_outside {page addr : Nat}
    (h : addr < baseAddress page ∨ baseAddress page + 0x1000 ≤ addr) : windowOffset page addr = none := by
  unfold windowOffset
  rw [if_neg]
  omega

/-- An offset below 0x1000 fits its 12 bits. -/
theorem offset_toNat {off : Nat} (h : off < 0x1000) : (BitVec.ofNat 12 off).toNat = off := by
  rw [BitVec.toNat_ofNat]
  omega

theorem offset_ne {off n : Nat} (h : off < 0x1000) (hn : n < 0x1000) (hne : off ≠ n) :
    BitVec.ofNat 12 off ≠ BitVec.ofNat 12 n := fun he => by
  have := congrArg BitVec.toNat he
  rw [offset_toNat h, offset_toNat hn] at this
  exact hne this

theorem lowBits_offset (off : Nat) :
    (BitVec.ofNat 12 off).extractLsb' 0 2 = 0 ↔ off % 4 = 0 := by
  rw [← BitVec.toNat_inj]
  simp

theorem admitted_aligned {off : Nat} (h : off % 4 = 0) :
    admitted .bits32 (BitVec.ofNat 12 off) = true := by
  simp [admitted, (lowBits_offset off).mpr h]

theorem not_admitted {width : Width} {off : Nat} (h : width ≠ .bits32 ∨ off % 4 ≠ 0) :
    admitted width (BitVec.ofNat 12 off) = false := by
  rcases h with h | h
  · simp [admitted, h]
  · have := mt (lowBits_offset off).mp h
    simp only [admitted, beq_eq_false_iff_ne.mpr this, Bool.and_false]

/-- The entry that an offset in the table's range names. -/
theorem regAt_table {off : Nat} (h4 : off % 4 = 0) (hlo : 0x400 ≤ off) (hhi : off ≤ 0x7FC) :
    ∃ i : Byte, regAt (BitVec.ofNat 12 off) = .table i ∧ i.toNat = (off - 0x400) / 4 := by
  have h : off < 0x1000 := by omega
  have hne : ∀ n : Nat, n < 0x400 → BitVec.ofNat 12 off ≠ BitVec.ofNat 12 n := fun n hn =>
    offset_ne h (by omega) (by omega)
  refine ⟨((BitVec.ofNat 12 off - 0x400#12) >>> 2).setWidth 8, ?_, ?_⟩
  · unfold regAt
    rw [if_neg (hne 0 (by omega)), if_neg (hne 4 (by omega)), if_neg (hne 8 (by omega)),
      if_neg (hne 0xC (by omega)), if_pos (by rw [offset_toNat h]; omega)]
  · simp [BitVec.toNat_sub, Nat.shiftRight_eq_div_pow]
    omega

/-- Every other offset but the four registers' is reserved. -/
theorem regAt_reserved {off : Nat} (h : off < 0x1000) (ht : off < 0x400 ∨ 0x7FC < off)
    (h0 : off ≠ 0x000) (h4 : off ≠ 0x004) (h8 : off ≠ 0x008) (hC : off ≠ 0x00C) :
    regAt (BitVec.ofNat 12 off) = .reserved := by
  unfold regAt
  rw [if_neg (offset_ne h (by omega) h0), if_neg (offset_ne h (by omega) h4),
    if_neg (offset_ne h (by omega) h8), if_neg (offset_ne h (by omega) hC),
    if_neg (by rw [offset_toNat h]; omega)]

/-- An aligned 32-bit access to the window is one step (R44). -/
theorem step_access {s : State} {off : Nat} {t : Transfer} {rest : List Event}
    (h4 : off % 4 = 0) (h : off < 0x1000)
    (he : s.events = .access { addr := baseAddress s.basePage + off, width := .bits32, transfer := t } :: rest) :
    step s = .next (accessReg (regAt (BitVec.ofNat 12 off)) t { s with events := rest }) := by
  unfold step
  rw [he]
  simp only [takeEvent, hostAccess, windowOffset_of_lt _ h, admitted_aligned h4, if_true]

/-- The word of `STATUS` as a number (R22). -/
theorem Status.word_eq (st : Status) :
    st.word = BitVec.ofNat 32
      (st.err.toNat * 256 + st.fatal.toNat * 4 + st.done.toNat * 2 + st.busy.toNat) := by
  obtain ⟨b, d, f, e⟩ := st
  revert b d f e
  unfold Status.word
  decide

end Sys2Proof.Machine
end

