-- ==== Sys2Proof/Tests/Slice0.lean ====
section
/-! SUPPORT. The model's own tests. Expected values come from spec/95_test_vectors.md and the rules named; none was taken
from the model. After them, for each statement of Certificates/Slice0 that has hypotheses, a state that meets them. -/

namespace Sys2Proof.Tests

open Sys2Proof.Machine

/-! ### Helpers -/

/-- The reset state with events to come. -/
def idle (events : List Event) : State := { State.reset with events := events }

/-- A command in flight from reset, as acceptance leaves it (R82). -/
def busyWith (w : Word) (events : List Event) : State :=
  { State.reset with
    ifl := w, lastcmd := w, events := events
    status := { busy := true, done := false, fatal := false, err := 0 } }

/-- The halted state (R167). -/
def halted (events : List Event) : State :=
  { State.reset with
    events := events, status := { busy := false, done := false, fatal := true, err := 0 } }

/-- A view of the next state, none where the machine stops. -/
def view {α : Type} (f : State → α) (o : Host.Outcome State Fault Refusal) : Option α :=
  match o with
  | .next s => some (f s)
  | .fault _ => none
  | .refused _ => none

/-- `RESULT` and `STATUS` as read. -/
def resultAndStatus (s : State) : Word × Word := (resultWord s.result, s.status.word)

/-- Why a step is refused, if it is. -/
def refusalOf (o : Host.Outcome State Fault Refusal) : Option Refusal :=
  match o with
  | .next _ => none
  | .fault _ => none
  | .refused r => some r

/-- The reason a word is rejected, if it is. -/
def rejection (w : Word) : Option DecodeError :=
  match decodeWord w with
  | .ok _ => none
  | .error e => some e

/-! ### Well-formedness: each check refuses an ill-formed term -/

theorem test_wf_accepts_byte_literals : Asm.wf (.mul 0 255) = true := by decide
theorem test_wf_refuses_mul_first_literal : Asm.wf (.mul 256 0) = false := by decide
theorem test_wf_refuses_mul_second_literal : Asm.wf (.mul 0 256) = false := by decide
theorem test_wf_refuses_wide_literal_of_each_line :
    [Asm.invScan 256, .invEea 256, .invFermat 256, .aff 256, .sbox 256, .inv 256, .sqr 256].map Asm.wf
      = List.replicate 7 false := by decide
theorem test_assembler_refuses_wide_literal : assemble (.aff 256) = none := by decide
theorem test_canonical_refuses_ignored_b :
    [Instr.invScan 1 1, .invEea 1 1, .invFermat 1 1, .aff 1 1, .sbox 1 1].map Instr.canonical
      = List.replicate 5 false := by decide
theorem test_canonical_refuses_ignored_a :
    [Instr.nop 1 0, .genScan 1 0, .genEea 1 0, .genFermat 1 0, .du 1 0].map Instr.canonical
      = List.replicate 5 false := by decide
theorem test_canonical_accepts_assembled : [Instr.mul 1 2, .nop 0 0, .sbox 1 0].map Instr.canonical
      = List.replicate 3 true := by decide

/-! ### Decoding: words written out bit by bit from R61, `RSV1 B A RSV0 METH OP` -/

theorem test_decode_nop : decodeTableWord 32 0b00000000_11111111_11111111_00_00_0000 = some (.nop 0xFF 0xFF) := by decide
theorem test_decode_mul : decodeTableWord 32 0b00000000_10000011_01010111_00_00_0001 = some (.mul 0x57 0x83) := by decide
theorem test_decode_inv_scan : decodeTableWord 32 0b00000000_00000000_01010011_00_00_0010 = some (.invScan 0x53 0) := by decide
theorem test_decode_inv_eea : decodeTableWord 32 0b00000000_00000000_01010011_00_01_0010 = some (.invEea 0x53 0) := by decide
theorem test_decode_inv_fermat : decodeTableWord 32 0b00000000_00000000_01010011_00_10_0010 = some (.invFermat 0x53 0) := by decide
theorem test_decode_aff : decodeTableWord 32 0b00000000_11111111_11001010_00_00_0011 = some (.aff 0xCA 0xFF) := by decide
theorem test_decode_sbox : decodeTableWord 32 0b00000000_00000000_01010011_00_00_0100 = some (.sbox 0x53 0) := by decide
theorem test_decode_gen_scan : decodeTableWord 32 0b00000000_11111111_11111111_00_00_0101 = some (.genScan 0xFF 0xFF) := by decide
theorem test_decode_gen_eea : decodeTableWord 32 0b00000000_00000000_00000000_00_01_0101 = some (.genEea 0 0) := by decide
theorem test_decode_gen_fermat : decodeTableWord 32 0b00000000_00000000_00000000_00_10_0101 = some (.genFermat 0 0) := by decide
theorem test_decode_du : decodeTableWord 32 0b00000000_00000000_11111111_00_00_0110 = some (.du 0xFF 0) := by decide

/-- The words that 95 2.8 lists as not legal, with the reason of R63, R65 or R68. -/
theorem test_decode_rejects_by_name :
    [0x00000010#32, 0x00000011#32, 0x00000032#32, 0x00000035#32, 0x00000013#32].map rejection
        = List.replicate 5 (some .illegalMethod) ∧
      [0x00000041#32, 0x00000081#32, 0x01000001#32, 0x80000006#32, 0xFFFFFFFF#32].map rejection
        = List.replicate 5 (some .reservedBits) ∧
      [0x00000007#32, 0x0000000F#32].map rejection = List.replicate 2 (some .reservedOp) := by decide

theorem test_legal_refuses_them :
    [0x00000010#32, 0x00000011#32, 0x00000032#32, 0x00000035#32, 0x00000013#32, 0x00000041#32, 0x00000081#32,
      0x01000001#32, 0x80000006#32, 0x00000007#32, 0x0000000F#32, 0xFFFFFFFF#32].map legal
      = List.replicate 12 false := by decide

theorem test_legal_accepts :
    [0x00000000#32, 0x00FFFF00#32, 0x00835701#32, 0x00005312#32, 0x00FF0003#32, 0x0000FF06#32].map legal
      = List.replicate 6 true := by decide

/-- R43: the byte at the lowest address carries bits 7:0. -/
theorem test_bytes_little_endian : wordBytes 0x00835701 = [0x01, 0x57, 0x83, 0x00] := by decide
theorem test_decode_bytes_needs_four : decodeBytes [0x01, 0x57, 0x83] = .error .truncated := by rfl

/-- R71. -/
theorem test_assemble_pseudo :
    assemble (.inv 0x53) = some (.invScan 0x53 0) ∧ assemble .gen = some (.genScan 0 0) ∧
      assemble (.sqr 3) = some (.mul 3 3) := by decide

/-! ### Commands: one completion step each (95 2.1 to 2.7) -/

theorem test_nop_sets_done : view resultAndStatus (exec (.nop 1 2) (busyWith 0 [])) = some (0, 2) := by decide
theorem test_mul_reduces : view resultAndStatus (exec (.mul 0x57 0x83) (busyWith 0x00835701 [])) = some (0xC1, 2) := by
  decide +kernel
theorem test_mul_largest : gmul 0xFF 0xFF = 0x13 ∧ gmul 0x80 0x02 = 0x1B := by decide +kernel
theorem test_inv_scan : view resultAndStatus (exec (.invScan 0x03 0) (busyWith 0x00000302 [])) = some (0xF6, 2) := by
  decide +kernel
theorem test_inv_eea : view resultAndStatus (exec (.invEea 0x53 0) (busyWith 0x00005312 [])) = some (0xCA, 2) := by
  decide +kernel
theorem test_inv_fermat : view resultAndStatus (exec (.invFermat 0xFF 0) (busyWith 0x0000FF22 [])) = some (0x1C, 2) := by
  decide +kernel
theorem test_inv_of_zero : [invScan 0, invEea 0, invFermat 0] = List.replicate 3 (true, 0) := by decide +kernel
/-- 95 2.2: the first steps `(q, r2)` of the Euclidean trace of 0x53. -/
theorem test_eea_division : pdivmod 0x11B 0x53 = (0x05, 0x04) ∧ pdivmod 0x53 0x04 = (0x14, 0x03) := by decide +kernel
theorem test_aff : view resultAndStatus (exec (.aff 0xCA 0xFF) (busyWith 0x0000CA03 [])) = some (0xED, 2) := by
  decide +kernel
theorem test_aff_bits : [affine 0x00, affine 0x02, affine 0x05, affine 0x80] = [0x63, 0x5D, 0x00, 0xEC] := by
  decide +kernel
theorem test_sbox : view resultAndStatus (exec (.sbox 0x53 9) (busyWith 0x00095304 [])) = some (0xED, 2) := by
  decide +kernel
theorem test_sbox_ends : srom 0x00 = 0x63 ∧ srom 0xFF = 0x16 := by decide +kernel
/-- The table that `GEN` by each method writes, at entries of 95 2.6 and Program 2. -/
theorem test_gen_scan_entry : (genResult .scan).tbl.map (fun t => Memory.read t 0x01) = some (some 0x7C) := by
  decide +kernel
theorem test_gen_eea_entry : (genResult .eea).tbl.map (fun t => Memory.read t 0x53) = some (some 0xED) := by
  decide +kernel
theorem test_gen_fermat : view (fun s => (Memory.read s.table 0xFF, s.status.word, s.result))
    (exec (.genFermat 0 0) (busyWith 0x25 [])) = some (some 0x16, 2, 0) := by decide +kernel
/-- 95 2.9: `DU` over an unwritten table completes; its result is a draw. -/
theorem test_du_unwritten_completes : view (fun s => (s.status.word, s.draws)) (exec (.du 0 0) (busyWith 6 []))
    = some (2, 1) := by decide +kernel
/-- 95 2.7: the histogram of the S-box for α = 0x01 has one bucket with count 4. -/
theorem test_du_histogram : hist srom 0x01 0x1F = 4 := by decide +kernel

/-! ### The engine and the host's interface -/

/-- Each row's word, placed, runs as the first instruction after reset. -/
theorem test_placed_words_run :
    [0x00, 0x01, 0x02, 0x12, 0x22, 0x03, 0x04, 0x05, 0x15, 0x25, 0x06].map
        (fun w => view (fun _ => true) (step (State.reset.withFetchWord 32 w)))
      = List.replicate 11 (some true) := by decide +kernel

/-- 95 2.9: `ISSUE MUL 0x02, 0x03`, read before completion. -/
theorem test_issue_accepts : view (fun s => (s.status.word, s.lastcmd, s.result))
    (step (idle [.access (issue 0 0x00030201)])) = some (1, 0x00030201, 0) := by decide +kernel
theorem test_issue_illegal : view (fun s => (s.status.word, s.lastcmd))
    (step (idle [.access (issue 0 0x00000007)])) = some (0x100, 0) := by decide +kernel
/-- CMD_BUSY outranks ILLEGAL (R163). -/
theorem test_issue_busy : view (fun s => (s.status.word, s.lastcmd))
    (step (busyWith 0x00030201 [.access (issue 0 0x00000007)])) = some (0x201, 0x00030201) := by decide +kernel
/-- 95 2.9, abort vector. -/
theorem test_issue_halted : view (fun s => s.status.word) (step (halted [.access (issue 0 0)])) = some 0x404 := by
  decide +kernel
theorem test_abort_of_gen : (completeCommand { ok := false, res := none, tbl := some [] }
    { busyWith 5 [] with table := [(0, 1)] }).status.word = 4 ∧
    (completeCommand { ok := false, res := none, tbl := some [] }
    { busyWith 5 [] with table := [(0, 1)] }).table = [] := by decide
theorem test_table_write_low_byte : view (fun s => s.table) (step (idle [.access (tableWrite 0 0 0x1FF)]))
    = some [(0, 0xFF)] := by decide +kernel
theorem test_table_write_busy : view (fun s => (s.status.word, s.table))
    (step (busyWith 6 [.access (tableWrite 0 0x10 0x55)])) = some (0x301, []) := by decide +kernel
theorem test_read_id : view (fun s => s.readLog) (step (idle [.access (readAt 0 0x00C)])) = some [0x47463807] := by
  decide +kernel
theorem test_read_reserved : view (fun s => s.readLog) (step (idle [.access (readAt 0 0x800)])) = some [0] := by
  decide +kernel
/-- R40: the same read with the window at 0x3000. -/
theorem test_read_at_base : view (fun s => s.readLog)
    (step { idle [.access (readAt 3 0x00C)] with basePage := 3 }) = some [0x47463807] := by decide +kernel
theorem test_byte_read_refused : refusalOf (step (idle [.access { addr := 0, width := .bits8, transfer := .read }]))
    = some .accessNotAdmitted := by decide +kernel
theorem test_misaligned_read_refused :
    refusalOf (step (idle [.access { addr := 2, width := .bits32, transfer := .read }])) = some .accessNotAdmitted := by
  decide +kernel
/-- 95 2.10: reset while a `DU` is in flight. -/
theorem test_reset_discards : view (fun s => (s.status.word, s.result, s.lastcmd, s.table))
    (step { busyWith 6 [.reset] with result := 0xC1, table := [(0, 0x63)] }) = some (0, 0, 0, []) := by decide +kernel

/-! ### States that meet the hypotheses of the statements -/

theorem witness_decoded_word : decodeWord 0x00835701 = .ok (.mul 0x57 0x83) := by rfl
theorem witness_reserved_bits : rsv0Field 0x40 ≠ 0 ∧ rsv1Field 0x01000000 ≠ 0 := by decide
/-- `OP` at both ends of its reserved range. -/
theorem witness_reserved_op :
    (rsv0Field 0x7 = 0 ∧ rsv1Field 0x7 = 0 ∧ 7 ≤ (opField 0x7).toNat) ∧
      (rsv0Field 0xF = 0 ∧ rsv1Field 0xF = 0 ∧ 7 ≤ (opField 0xF).toNat) := by decide
theorem witness_illegal_method_of_inv_and_gen :
    (rsv0Field 0x32 = 0 ∧ rsv1Field 0x32 = 0 ∧ opField 0x32 ∈ [0x2#4, 0x5#4] ∧ methField 0x32 = 3) ∧
      (rsv0Field 0x35 = 0 ∧ rsv1Field 0x35 = 0 ∧ opField 0x35 ∈ [0x2#4, 0x5#4] ∧ methField 0x35 = 3) := by decide
/-- `NOP` with `METH` 1 and `DU` with `METH` 3. -/
theorem witness_illegal_method_of_others :
    (rsv0Field 0x10 = 0 ∧ rsv1Field 0x10 = 0 ∧ opField 0x10 ∈ [0x0#4, 0x1#4, 0x3#4, 0x4#4, 0x6#4] ∧ methField 0x10 ≠ 0) ∧
      (rsv0Field 0x36 = 0 ∧ rsv1Field 0x36 = 0 ∧ opField 0x36 ∈ [0x0#4, 0x1#4, 0x3#4, 0x4#4, 0x6#4] ∧ methField 0x36 ≠ 0) := by
  decide

theorem witness_assembled_line : assemble (.sqr 0xFF) = some (.mul 0xFF 0xFF) := by decide

/-- Every write to `CMD` below is of the form of the statements, at some window. -/
def issued (w : Word) : List Event := [.access (issue 0 w)]

theorem witness_accepted : (idle (issued 6)).events = .access (issue (idle (issued 6)).basePage 6) :: [] ∧
    (idle (issued 6)).status.fatal = false ∧ (idle (issued 6)).status.busy = false ∧ legal 6 = true := by decide
theorem witness_rejected_halted : (halted (issued 6)).events = .access (issue (halted (issued 6)).basePage 6) :: [] ∧
    ¬ ((halted (issued 6)).status.fatal = false ∧ (halted (issued 6)).status.busy = false ∧ legal 6 = true) := by decide
theorem witness_rejected_busy : (busyWith 6 (issued 6)).events = .access (issue (busyWith 6 (issued 6)).basePage 6) :: [] ∧
    ¬ ((busyWith 6 (issued 6)).status.fatal = false ∧ (busyWith 6 (issued 6)).status.busy = false ∧ legal 6 = true) := by
  decide
theorem witness_rejected_illegal : (idle (issued 7)).events = .access (issue (idle (issued 7)).basePage 7) :: [] ∧
    ¬ ((idle (issued 7)).status.fatal = false ∧ (idle (issued 7)).status.busy = false ∧ legal 7 = true) := by decide
theorem witness_command_in_latch :
    (busyWith 6 []).status.busy = true ∧ decodeWord (busyWith 6 []).ifl = .ok (.du 0 0) ∧ (busyWith 6 []).events = [] ∧
      (busyWith 6 [.engine]).events = .engine :: [] := ⟨rfl, rfl, rfl, rfl⟩
theorem witness_idle_engine : (idle [.engine]).status.busy = false ∧ (idle [.engine]).events = .engine :: [] ∧
    (idle []).status.busy = false ∧ (idle []).events = [] := by decide
theorem witness_issued_command :
    let s := idle [.access (issue 0 (encode (.mul 0x57 0x83))), .engine]
    s.events = .access (issue s.basePage (encode (.mul 0x57 0x83))) :: .engine :: [] ∧ s.status.fatal = false ∧
      s.status.busy = false := by decide

/-- The offsets where the clauses of a host read or write meet, all aligned and in the window; each falls under one clause. -/
theorem witness_offsets : ∀ off ∈ [0x000, 0x004, 0x008, 0x00C, 0x010, 0x3FC, 0x400, 0x7FC, 0x800, 0xFFC],
    off % 4 = 0 ∧ off < 0x1000 ∧
      ((0x400 ≤ off ∧ off ≤ 0x7FC) ↔ off ∈ [0x400, 0x7FC]) ∧
      (idle [.access (readAt 0 off)]).events = .access (readAt (idle []).basePage off) :: [] ∧
      (idle [.access (writeAt 0 off 1)]).events = .access (writeAt (idle []).basePage off 1) :: [] := by decide
/-- A table read that is a draw since the entry is unwritten, one that is a draw since `GEN` (5) or `DU` (6) is in flight, and
one of a written entry, at the first and last entry. -/
theorem witness_table_read_clauses :
    Memory.read (idle []).table ((0x400 - 0x400) / 4) = none ∧
    ((busyWith 5 []).status.busy = true ∧ opField (busyWith 5 []).ifl = 0x5) ∧
    ((busyWith 6 []).status.busy = true ∧ opField (busyWith 6 []).ifl = 0x6) ∧
    (let s : State := { busyWith 1 [] with table := [(0, 7), (255, 9)] };
      Memory.read s.table ((0x400 - 0x400) / 4) = some 7 ∧ Memory.read s.table ((0x7FC - 0x400) / 4) = some 9 ∧
        ¬ (s.status.busy = true ∧ (opField s.ifl = 0x5 ∨ opField s.ifl = 0x6))) := by decide
theorem witness_write_clauses : (busyWith 6 []).status.busy = true ∧ (idle []).status.busy = false := by decide
theorem witness_table_write_then_read :
    let s := idle [.access (tableWrite 0 255 1), .access (tableRead 0 255)]
    s.status.busy = false ∧
      s.events = .access (tableWrite s.basePage 255 1) :: .access (tableRead s.basePage 255) :: [] := by decide
theorem witness_table_write_then_read_other :
    let s : State := { idle [.access (tableWrite 0 0 1), .access (tableRead 0 255)] with table := [(255, 9)] };
    s.status.busy = false ∧ (0#8 : Byte) ≠ 255 ∧ Memory.read s.table (255#8 : Byte).toNat = some 9 ∧
      s.events = .access (tableWrite s.basePage 0 1) :: .access (tableRead s.basePage 255) :: [] := by decide
/-- Each way of not being admitted, at both ends of the window. -/
theorem witness_unadmitted : ∀ p ∈ [(0x000, Width.bits8), (0xFFE, Width.bits16), (0xFFF, Width.bits32)],
    p.1 < 0x1000 ∧ (p.2 ≠ .bits32 ∨ p.1 % 4 ≠ 0) ∧
      (idle [.access { addr := p.1, width := p.2, transfer := .read }]).events
        = .access { addr := 4096 * (idle []).basePage + p.1, width := p.2, transfer := .read } :: [] := by decide
/-- A 32-bit read at a bus address. -/
def readOfAddress (addr : Nat) : Access := { addr := addr, width := .bits32, transfer := .read }
/-- Just below and just above a window at 0x1000. -/
theorem witness_outside_window :
    (0x0FFF < 4096 * 1 ∧ (idle [.access (readOfAddress 0x0FFF)]).events = .access (readOfAddress 0x0FFF) :: []) ∧
      (4096 * 1 + 0x1000 ≤ 0x2000 ∧
        (idle [.access (readOfAddress 0x2000)]).events = .access (readOfAddress 0x2000) :: []) := by decide
theorem witness_unadmitted_events : (idle [.secondMaster (readAt 0 0)]).events = .secondMaster (readAt 0 0) :: [] ∧
    (idle [.accessDuringReset (readAt 0 0)]).events = .accessDuringReset (readAt 0 0) :: [] := by decide
theorem witness_write_then_status :
    let s := idle [.access (issue 0 6), .engine, .access (readAt 0 0x004)]
    StateInv s ∧ s.events = .access (issue s.basePage 6) ::
      (List.replicate 1 .engine ++ .access (readAt s.basePage 0x004) :: []) :=
  ⟨⟨nofun, nofun, nofun, (by decide : legal 0 = true), (by decide : (0 : Nat) ≤ 4), Memory.wf_nil⟩, rfl⟩
/-- The `ERR` field of a status read takes the value 0 of an accepted write, and a value of a rejected one. -/
theorem witness_err_field_read :
    (0x00000001#32).extractLsb' 8 3 = 0#3 ∧ (0x00000100#32).extractLsb' 8 3 ≠ 0#3 := by decide
theorem witness_reset_event : (busyWith 6 [.reset]).events = .reset :: [] := by decide
theorem witness_written_table : ∀ x : Byte,
    Memory.read ({ idle [] with table := Memory.ofFn id } : State).table x.toNat = some (id x) :=
  Memory.read_ofFn id
theorem witness_unwritten_entry : Memory.read ({ idle [] with table := [(0, 7)] } : State).table (255#8 : Byte).toNat = none := by
  decide
theorem witness_failed_self_check : ({ ok := false, res := none, tbl := some [] } : CommandResult).ok = false ∧
    ({ ok := false, res := some 1, tbl := none } : CommandResult).tbl = none := by decide
theorem witness_nonzero_byte : (0x53#8 : Byte) ≠ 0 ∧ gmul 0x53 0xCA = 1 ∧ (0xCA#8 : Byte) ≠ 0 := by decide +kernel
theorem witness_degrees : (1 ≤ deg 2 ∧ deg 2 ≤ 7) ∧ (1 ≤ deg 255 ∧ deg 255 ≤ 7) := by decide +kernel
theorem witness_bit_index : (0 < 8 ∧ 7 < 8) ∧ (0 < 4 ∧ 3 < 4) := by decide
theorem witness_gen_command : Instr.genEea 1 2 = .genScan 1 2 ∨ Instr.genEea 1 2 = .genEea 1 2 ∨
    Instr.genEea 1 2 = .genFermat 1 2 := by decide
theorem witness_nonzero_difference : (0x01#8 : Byte) ≠ 0 ∧ (0xFF#8 : Byte) ≠ 0 := by decide

/-- The states of this file meet the invariant: idle, in flight, halted. -/
theorem witness_invariant_idle (events : List Event) : StateInv (idle events) :=
  ⟨nofun, nofun, nofun, (by decide : legal 0 = true), (by decide : (0 : Nat) ≤ 4), Memory.wf_nil⟩
theorem witness_invariant_busy (w : Word) (events : List Event) (h : legal w = true) : StateInv (busyWith w events) :=
  ⟨fun _ => rfl, fun _ => rfl, fun _ => rfl, h, (by decide : (0 : Nat) ≤ 4), Memory.wf_nil⟩
theorem witness_invariant_halted (events : List Event) : StateInv (halted events) :=
  ⟨nofun, nofun, nofun, (by decide : legal 0 = true), (by decide : (0 : Nat) ≤ 4), Memory.wf_nil⟩

/-- R193, the product 0xC1 of spec/95_test_vectors.md: a reset after the last access comes after the end of the run, so the
product is observed. -/
theorem test_run_ends_before_a_trailing_reset :
    (runObservation (idle [.access (issue 0 (encode (.mul 0x57 0x83))), .engine, .reset])).map (·.result) = some 0xC1 := by
  decide +kernel
/-- R193, R182: a run with the command still in flight is not over, so a reset before its completion discards it. -/
theorem test_run_not_over_in_flight :
    runOver (busyWith 1 [.reset]) = false ∧
      (runObservation (idle [.access (issue 0 (encode (.mul 0x57 0x83))), .reset])).map (·.lastcmd) = some 0 := by
  decide +kernel
theorem witness_run : StateInv (idle [.access (readAt 0 4), .reset]) ∧
    ∀ e ∈ (idle [.access (readAt 0 4), .reset]).events, e.admitted (idle []).basePage = true :=
  ⟨witness_invariant_idle _, by decide⟩
theorem witness_run_and_tail : steps (idle [.access (issue 0 0), .engine]).events.length (idle [.access (issue 0 0), .engine])
      = .next { idle [] with status := { busy := false, done := true, fatal := false, err := 0 } } ∧
    ∀ e ∈ [Event.reset, .engine], e = .engine ∨ e = .reset := ⟨rfl, by decide⟩
theorem witness_alike_states : SameButIdleLatch (idle []) { idle [] with ifl := 7 } ∧
    SameButIdleLatch (busyWith 6 []) (busyWith 6 []) := ⟨⟨rfl, nofun⟩, rfl, fun _ => rfl⟩

theorem witness_step_from_invariant : ∃ s s', StateInv s ∧ step s = .next s' :=
  ⟨idle [.access (issue 0 0)], _, witness_invariant_idle _, rfl⟩
theorem witness_fatal_step : ∃ s s', s.status.fatal = false ∧ s.status.err ≠ 4 ∧ step s = .next s' :=
  ⟨busyWith 0 [], _, rfl, by decide, rfl⟩
theorem witness_reachable : Reachable (poweredUp 0 [.engine]) := .start _ _
theorem witness_admitted_event : StateInv (idle [.access (readAt 0 4)]) ∧
    ∀ e ∈ (idle [.access (readAt 0 4)]).events.head?, e.admitted (idle []).basePage = true :=
  ⟨witness_invariant_idle _, by decide⟩
theorem witness_command_completes : StateInv (busyWith 6 [.access (readAt 0 4), .engine]) ∧
    (busyWith 6 [.access (readAt 0 4), .engine]).status.busy = true ∧
    ∀ e ∈ (busyWith 6 [.access (readAt 0 4), .engine]).events, e.admitted (idle []).basePage = true ∧ e ≠ .reset :=
  ⟨witness_invariant_busy _ _ (by decide), rfl, by decide⟩
theorem witness_host_access_in_flight : ∃ s s' a rest,
    s.status.busy = true ∧ s.events = .access a :: rest ∧ step s = .next s' :=
  ⟨busyWith 6 [.access (tableWrite 0 0 1)], _, _, _, rfl, rfl, rfl⟩
theorem witness_no_write_event : ∃ s s', s.events.head? ≠ some .reset ∧
    (∀ a w, s.events.head? = some (.access a) → a.transfer ≠ .write w) ∧ step s = .next s' :=
  ⟨busyWith 0 [.engine], _, by decide, fun _ _ h => by simp [busyWith] at h, rfl⟩
theorem witness_halted_step : ∃ s s', StateInv s ∧ s.status.fatal = true ∧ s.events.head? ≠ some .reset ∧
    step s = .next s' :=
  ⟨halted [.access (issue 0 0)], _, witness_invariant_halted _, rfl, by decide, rfl⟩

end Sys2Proof.Tests
end

section
/-! PROOFS. O56, an accepted command completes (R12, R83). A legal word in the latch is a command, every command's
self-check succeeds, so the engine's turn completes it; until that turn no access of the host disturbs it. -/

namespace Sys2Proof

/-! ### A legal word is a command (R62 to R68) -/

theorem decodePlain_zero (i : Instr) : decodePlain 0 i = .ok i := rfl

theorem exists_decodeByMethod {meth : BitVec 2} (scan eea fermat : Instr) (h : meth ∈ [0#2, 1#2, 2#2]) :
    ∃ i, decodeByMethod meth scan eea fermat = .ok i := by
  simp only [List.mem_cons, List.not_mem_nil, or_false] at h
  rcases h with rfl | rfl | rfl
  · exact ⟨scan, rfl⟩
  · exact ⟨eea, rfl⟩
  · exact ⟨fermat, rfl⟩

/-- `OP` of `INV` or `GEN`, and `METH` below 3. -/
theorem exists_decodeFields_of_method {op : BitVec 4} {meth : BitVec 2} (a b : Byte)
    (hop : op ∈ [0x2#4, 0x5#4]) (hmeth : meth ∈ [0#2, 1#2, 2#2]) : ∃ i, decodeFields op meth a b = .ok i := by
  simp only [List.mem_cons, List.not_mem_nil, or_false] at hop
  rcases hop with rfl | rfl <;> exact exists_decodeByMethod _ _ _ hmeth

/-- `OP` of a command without a method, and `METH` 0. -/
theorem exists_decodeFields_of_plain {op : BitVec 4} (a b : Byte)
    (hop : op ∈ [0x0#4, 0x1#4, 0x3#4, 0x4#4, 0x6#4]) : ∃ i, decodeFields op 0 a b = .ok i := by
  simp only [List.mem_cons, List.not_mem_nil, or_false] at hop
  rcases hop with rfl | rfl | rfl | rfl | rfl <;> exact ⟨_, decodePlain_zero _⟩

theorem exists_decodeWord_of_legal {w : Word} (h : legal w = true) : ∃ i, decodeWord w = .ok i := by
  simp only [legal, Bool.and_eq_true, Bool.or_eq_true, beq_iff_eq, decide_eq_true_eq] at h
  obtain ⟨hrsv, hfields⟩ := h
  rw [decodeWord, if_pos hrsv]
  rcases hfields with ⟨hop, hmeth⟩ | ⟨hop, hmeth⟩
  · exact exists_decodeFields_of_method _ _ hop hmeth
  · rw [hmeth]
    exact exists_decodeFields_of_plain _ _ hop

end Sys2Proof

namespace Sys2Proof.Machine

/-! ### The self-check succeeds (R105, R106): `FERMAT` and `EEA` are evaluated on the 256 bytes, and the inverse that
`FERMAT` finds is one that `SCAN` comes to. -/

theorem invFermat_evaluated : ∀ a ∈ allBytes, a = 0 ∨ gmul a (invFermat a).2 = 1 := by
  decide +kernel

theorem invEea_evaluated : ∀ a ∈ allBytes, (invEea a).1 = true ∧ (a = 0 ∨ gmul a (invEea a).2 = 1) := by
  decide +kernel

theorem mem_nonzeroBytes {x : Byte} (h : x ≠ 0) : x ∈ nonzeroBytes := by
  have hpos : x.toNat ≠ 0 := fun hz => h (BitVec.eq_of_toNat_eq hz)
  refine List.mem_map.mpr ⟨x.toNat - 1, List.mem_range.mpr (by omega), ?_⟩
  rw [Nat.sub_add_cancel (by omega), BitVec.ofNat_toNat, BitVec.setWidth_eq]

theorem gmulLoop_zero_right (k : Nat) (p a : Byte) : gmulLoop k p a 0 = p := by
  induction k generalizing a with
  | zero => rfl
  | succ k ih => exact ih (xtime a)

theorem gmul_invFermat {a : Byte} (h : a ≠ 0) : gmul a (invFermat a).2 = 1 :=
  (invFermat_evaluated a (mem_allBytes a)).resolve_left h

theorem invEea_found (a : Byte) : (invEea a).1 = true :=
  (invEea_evaluated a (mem_allBytes a)).1

theorem gmul_invEea {a : Byte} (h : a ≠ 0) : gmul a (invEea a).2 = 1 :=
  (invEea_evaluated a (mem_allBytes a)).2.resolve_left h

/-- The search ends at an inverse, since there is one. -/
theorem invScan_of_ne_zero {a : Byte} (h : a ≠ 0) : ∃ i, invScan a = (true, i) ∧ gmul a i = 1 := by
  have hne : (invFermat a).2 ≠ 0 := fun hz => by
    have hone := gmul_invFermat h
    rw [hz, gmul, gmulLoop_zero_right] at hone
    exact absurd hone (by decide)
  rw [invScan, if_neg h]
  cases hfind : nonzeroBytes.find? fun i => gmul a i == 1 with
  | some i => exact ⟨i, rfl, by simpa using List.find?_some hfind⟩
  | none => simpa [gmul_invFermat h] using List.find?_eq_none.mp hfind _ (mem_nonzeroBytes hne)

/-- Every method finds a value for every byte. -/
theorem invBy_found (m : Method) (a : Byte) : (invBy m a).1 = true := by
  cases m with
  | scan =>
    by_cases h : a = 0
    · rw [h]; rfl
    · obtain ⟨i, hi, -⟩ := invScan_of_ne_zero h
      exact congrArg Prod.fst hi
  | eea => exact invEea_found a
  | fermat => rfl

/-- What a method finds for a nonzero byte is an inverse. -/
theorem gmul_invBy (m : Method) {a : Byte} (h : a ≠ 0) : gmul a (invBy m a).2 = 1 := by
  cases m with
  | scan =>
    obtain ⟨i, hi, hone⟩ := invScan_of_ne_zero h
    rw [invBy, hi, hone]
  | eea => exact gmul_invEea h
  | fermat => exact gmul_invFermat h

@[simp] theorem invChecked_ok (m : Method) (a : Byte) : (invChecked m a).1 = true := by
  rw [invChecked, invBy_found]
  by_cases h : a = 0
  · simp [h]
  · simp [gmul_invBy m h]

theorem invResult_ok (m : Method) (a : Byte) : (invResult m a).ok = true := invChecked_ok m a

theorem genResult_ok (m : Method) : (genResult m).ok = true := by
  simp [genResult]

/-! ### Every command completes normally (R84) -/

theorem completeCommand_status {r : CommandResult} (s : State) (h : r.ok = true) :
    (completeCommand r s).status = s.status.completed := by
  rw [completeCommand_ok s h]

theorem duValue_status (s : State) : (duValue s).2.status = s.status := by
  unfold duValue; split <;> rfl

theorem duValue_lastcmd (s : State) : (duValue s).2.lastcmd = s.lastcmd := by
  unfold duValue; split <;> rfl

/-- The completion step of a result whose self-check succeeded. -/
theorem next_completeCommand {r : CommandResult} (s : State) (h : r.ok = true) :
    ∃ s', (.next (completeCommand r s) : Host.Outcome State Fault Refusal) = .next s' ∧
      s'.status = s.status.completed ∧ s'.lastcmd = s.lastcmd :=
  ⟨_, rfl, completeCommand_status s h, completeCommand_lastcmd r s⟩

theorem exec_completes (i : Instr) (s : State) :
    ∃ s', exec i s = .next s' ∧ s'.status = s.status.completed ∧ s'.lastcmd = s.lastcmd := by
  cases i with
  | nop a b => exact next_completeCommand s rfl
  | mul a b => exact next_completeCommand s rfl
  | invScan a b => exact next_completeCommand s (invResult_ok .scan a)
  | invEea a b => exact next_completeCommand s (invResult_ok .eea a)
  | invFermat a b => exact next_completeCommand s (invResult_ok .fermat a)
  | aff a b => exact next_completeCommand s rfl
  | sbox a b => exact next_completeCommand s rfl
  | genScan a b => exact next_completeCommand s (genResult_ok .scan)
  | genEea a b => exact next_completeCommand s (genResult_ok .eea)
  | genFermat a b => exact next_completeCommand s (genResult_ok .fermat)
  | du a b =>
    rw [← duValue_status s, ← duValue_lastcmd s]
    exact next_completeCommand (duValue s).2 rfl

/-! ### A command in flight -/

/-- The part of the invariant that the command's completion rests on: `BUSY` is 1 and the latch holds a legal word. -/
structure InFlight (s : State) : Prop where
  busy : s.status.busy = true
  legal_latch : legal s.ifl = true

theorem StateInv.inFlight {s : State} (h : StateInv s) (hb : s.status.busy = true) : InFlight s :=
  ⟨hb, by rw [h.latch_is_lastcmd hb]; exact h.lastcmd_legal⟩

theorem fetchLatch_of_decode {s : State} {i : Instr} (h : decodeWord s.ifl = .ok i) : fetchLatch s = some i := by
  rw [fetchLatch, h]

/-- The engine's turn completes the command (R83, R84). -/
theorem InFlight.engineTurn_completes {s : State} (h : InFlight s) :
    ∃ s', engineTurn s = .next s' ∧ s'.status = s.status.completed ∧ s'.lastcmd = s.lastcmd := by
  obtain ⟨i, hi⟩ := exists_decodeWord_of_legal h.legal_latch
  obtain ⟨s', hs', hstatus, hlast⟩ := exec_completes i s
  exact ⟨s', by simp [engineTurn, h.busy, fetchLatch_of_decode hi, hs'], hstatus, hlast⟩

/-- A host write while `BUSY = 1` is ignored or dropped with a code (R46, R81). -/
theorem hostWrite_of_busy (r : Reg) (w : Word) {s : State} (hb : s.status.busy = true) :
    hostWrite r w s = s ∨ ∃ code, hostWrite r w s = raiseError code s := by
  rcases hostWrite_cases r w s with h | ⟨code, -, h⟩ | ⟨-, hidle, -⟩ | ⟨-, hidle, -⟩
  · exact .inl h
  · exact .inr ⟨code, h⟩
  · simp [hb] at hidle
  · simp [hb] at hidle

/-- A host access leaves the command in flight in its latch (R52, R85). -/
theorem InFlight.after_hostAccess {s s' : State} {a : Access} (h : InFlight s) (ha : hostAccess a s = .next s') :
    InFlight s' ∧ s'.lastcmd = s.lastcmd := by
  obtain ⟨hb, hl⟩ := h
  rcases hostAccess_cases ha with rfl | ⟨r, rfl⟩ | ⟨r, w, rfl⟩
  · exact ⟨⟨hb, hl⟩, rfl⟩
  · obtain ⟨v, n, hr⟩ := hostRead_eq r s
    rw [hr]
    exact ⟨⟨hb, hl⟩, rfl⟩
  · rcases hostWrite_of_busy r w hb with hw | ⟨code, hw⟩ <;> rw [hw] <;> exact ⟨⟨hb, hl⟩, rfl⟩

/-- An admitted access is a step (R42, R44). -/
theorem hostAccess_of_admitted {a : Access} {s : State} (h : (Event.access a).admitted s.basePage = true) :
    ∃ s', hostAccess a s = .next s' := by
  unfold hostAccess
  cases hw : windowOffset s.basePage a.addr with
  | none => exact ⟨s, rfl⟩
  | some off => exact ⟨_, if_pos (by simpa [Event.admitted, hw] using h)⟩

/-! ### Its completion, by induction on the events to come -/

/-- What O56 says of a state: some run of at most one step more than there are events ends the command normally. -/
def Completes (s : State) : Prop :=
  ∃ k s', k ≤ s.events.length + 1 ∧ steps k s = .next s' ∧
    s'.status.busy = false ∧ s'.status.done = true ∧ s'.lastcmd = s.lastcmd

/-- The command is over where the next step completes it. -/
theorem Completes.of_step {s s' : State} {st : Status} (hs : step s = .next s') (hstatus : s'.status = st.completed)
    (hlast : s'.lastcmd = s.lastcmd) : Completes s :=
  ⟨1, s', by omega, by rw [steps_succ_of_next 0 hs, steps], by simp [hstatus], by simp [hstatus], hlast⟩

/-- A step that takes off an event and keeps `LASTCMD` may come first. -/
theorem Completes.after_step {s s' : State} (hs : step s = .next s') (he : s.events.length = s'.events.length + 1)
    (hlast : s'.lastcmd = s.lastcmd) (h : Completes s') : Completes s := by
  obtain ⟨k, t, hk, ht, hbusy, hdone, hl⟩ := h
  exact ⟨k + 1, t, by omega, by rw [steps_succ_of_next k hs, ht], hbusy, hdone, hl.trans hlast⟩

theorem InFlight.completes {s : State} (h : InFlight s)
    (hadm : ∀ e ∈ s.events, e.admitted s.basePage = true ∧ e ≠ .reset) : Completes s := by
  generalize hev : s.events = events at hadm
  induction events generalizing s with
  | nil =>
    obtain ⟨s', hs', hstatus, hlast⟩ := h.engineTurn_completes
    exact .of_step (by rw [step, hev]; exact hs') hstatus hlast
  | cons e rest ih =>
    obtain ⟨hadmit, hnot_reset⟩ := hadm e List.mem_cons_self
    have hstep : step s = takeEvent e { s with events := rest } := by rw [step, hev]
    have hrest : InFlight { s with events := rest } := ⟨h.busy, h.legal_latch⟩
    cases e with
    | access a =>
      obtain ⟨s', hs'⟩ : ∃ s', hostAccess a { s with events := rest } = .next s' := hostAccess_of_admitted hadmit
      obtain ⟨hflight, hlast⟩ := hrest.after_hostAccess hs'
      obtain ⟨hevents, hpage⟩ := hostAccess_events hs'
      refine .after_step (hstep.trans hs') (by rw [hev, hevents, List.length_cons]) hlast (ih hflight hevents ?_)
      rw [hpage]
      exact fun e he => hadm e (List.mem_cons_of_mem _ he)
    | engine =>
      obtain ⟨s', hs', hstatus, hlast⟩ := hrest.engineTurn_completes
      exact .of_step (hstep.trans hs') hstatus hlast
    | reset => exact absurd rfl hnot_reset
    | accessDuringReset a => simp [Event.admitted] at hadmit
    | secondMaster a => simp [Event.admitted] at hadmit

/-- Settles O56, by induction on the events to come: an access leaves the command in flight, and the engine's turn, which
comes at the latest after the last event, completes it. -/
theorem acceptedCommandCompletes : Obligations.AcceptedCommandCompletes :=
  fun _ hinv hbusy hadm => (hinv.inFlight hbusy).completes hadm

end Sys2Proof.Machine
end

section
/-! PROOFS. O52 and O53, the invariant: it holds of a powered-up machine, and what a host access, an engine's turn and a reset
can do keeps it (R21, R22, R29, R161, R166). -/

namespace Sys2Proof.Machine

/-- The reset values meet the invariant, with any word in the latch (R180). -/
theorem stateInv_of_reset_values {s : State} (hlast : s.lastcmd = 0) (hstatus : s.status = Status.reset)
    (htable : s.table = []) : StateInv s where
  busy_not_fatal _ := by rw [hstatus, Status.reset_fatal]
  busy_not_done _ := by rw [hstatus, Status.reset_done]
  latch_is_lastcmd hb := by simp [hstatus] at hb
  lastcmd_legal := by rw [hlast]; decide
  err_produced := by rw [hstatus, Status.reset_err]; decide
  table_wf := by rw [htable]; exact Memory.wf_nil

/-- Settles O52: a powered-up machine holds the reset values. -/
theorem powerUpMeetsTheInvariant : Obligations.PowerUpMeetsTheInvariant :=
  fun _ _ => stateInv_of_reset_values rfl rfl rfl

/-- The invariant does not speak of the draws, the read log and the events to come. -/
theorem StateInv.with_own_fields {s : State} (h : StateInv s) (draws : Nat) (readLog : List Word) (events : List Event) :
    StateInv { s with draws := draws, readLog := readLog, events := events } :=
  { h with }

theorem StateInv.raiseError {s : State} (h : StateInv s) {code : BitVec 3} (hcode : code.toNat ≤ 4) :
    StateInv (raiseError code s) :=
  { h with err_produced := hcode }

theorem StateInv.acceptCommand {s : State} (h : StateInv s) {w : Word} (hfatal : s.status.fatal = false)
    (hw : legal w = true) : StateInv (acceptCommand w s) where
  busy_not_fatal _ := hfatal
  busy_not_done _ := rfl
  latch_is_lastcmd _ := rfl
  lastcmd_legal := hw
  err_produced := Nat.zero_le 4
  table_wf := h.table_wf

theorem StateInv.hostRead {s : State} (h : StateInv s) (r : Reg) : StateInv (hostRead r s) := by
  obtain ⟨v, n, hr⟩ := hostRead_eq r s
  rw [hr]
  exact h.with_own_fields _ _ _

theorem StateInv.hostWrite {s : State} (h : StateInv s) (r : Reg) (w : Word) : StateInv (hostWrite r w s) := by
  rcases hostWrite_cases r w s with hw | ⟨code, hcode, hw⟩ | ⟨hfatal, -, hlegal, hw⟩ | ⟨i, -, hw⟩ <;> rw [hw]
  · exact h
  · exact h.raiseError hcode
  · exact h.acceptCommand hfatal hlegal
  · exact { h with table_wf := Memory.wf_write h.table_wf i.isLt _ }

theorem StateInv.hostAccess {s s' : State} {a : Access} (h : StateInv s) (ha : hostAccess a s = .next s') :
    StateInv s' := by
  rcases hostAccess_cases ha with rfl | ⟨r, rfl⟩ | ⟨r, w, rfl⟩
  · exact h
  · exact h.hostRead r
  · exact h.hostWrite r w

/-- A completion or an abort leaves the core idle; what it can put in `TABLE` is a table that the command computed. -/
theorem StateInv.completeCommand {s : State} (h : StateInv s) {r : CommandResult}
    (hr : ∀ t, r.tbl = some t → Memory.wf t) : StateInv (completeCommand r s) where
  busy_not_fatal hb := by simp at hb
  busy_not_done hb := by simp at hb
  latch_is_lastcmd hb := by simp at hb
  lastcmd_legal := by simpa using h.lastcmd_legal
  err_produced := by simpa using h.err_produced
  table_wf := by
    rcases completeCommand_table_cases r s with ht | ht | ht
    · rw [ht]; exact h.table_wf
    · exact hr _ ht
    · rw [ht]; exact Memory.wf_nil

theorem StateInv.engineTurn {s s' : State} (h : StateInv s) (he : engineTurn s = .next s') : StateInv s' := by
  rcases engineTurn_cases he with ⟨-, rfl⟩ | ⟨-, i, -, hexec⟩
  · exact h
  · obtain ⟨r, s0, hi, hs0, htbl⟩ := exec_eq i s
    obtain rfl := Host.Outcome.next.inj (hexec.symm.trans hi)
    rcases hs0 with rfl | rfl
    · exact h.completeCommand htbl
    · exact (h.with_own_fields _ _ _ : StateInv (drawNine s).2).completeCommand htbl

/-- Settles O53, by what a step can do: a host access, an engine's turn or a reset. -/
theorem everyStepKeepsTheInvariant : Obligations.EveryStepKeepsTheInvariant := by
  intro s s' h hstep
  obtain ⟨s0, rfl, hs⟩ := step_cases hstep
  have h0 : StateInv { s with events := s.events.tail } := h.with_own_fields _ _ _
  rcases hs with ⟨a, ha⟩ | he | rfl
  · exact h0.hostAccess ha
  · exact h0.engineTurn he
  · exact stateInv_of_reset_values rfl rfl rfl

end Sys2Proof.Machine
end

section
/-! PROOFS. O60, the latch of an idle core is unobservable (R29, U10): no operation of an idle core reads `IFL`, and the one that
starts a command writes it. -/

namespace Sys2Proof.Machine

/-! ### The operations of an idle core, with another word in its latch -/

/-- An idle core's register reads as before, and the draw it may take is the same. -/
theorem readReg_idleLatch (r : Reg) {s : State} (latch : Word) (hb : s.status.busy = false) :
    readReg r { s with ifl := latch } = ((readReg r s).1, { (readReg r s).2 with ifl := latch }) := by
  cases r with
  | table i =>
    cases he : Memory.read s.table i.toNat <;> simp [readReg, readTable, hb, he, drawByte]
  | _ => rfl

theorem hostRead_idleLatch (r : Reg) {s : State} (latch : Word) (hb : s.status.busy = false) :
    hostRead r { s with ifl := latch } = { hostRead r s with ifl := latch } := by
  rw [hostRead, readReg_idleLatch r latch hb]
  rfl

@[simp] theorem hostRead_status (r : Reg) (s : State) : (hostRead r s).status = s.status := by
  obtain ⟨v, n, hr⟩ := hostRead_eq r s
  rw [hr]

theorem sameButIdleLatch_presentCommand (w : Word) {s : State} (latch : Word) (hb : s.status.busy = false) :
    SameButIdleLatch (presentCommand w s) (presentCommand w { s with ifl := latch }) := by
  cases hf : s.status.fatal with
  | true =>
    rw [presentCommand_halted w hf, presentCommand_halted w (s := { s with ifl := latch }) hf]
    exact sameButIdleLatch_of_idle (s := raiseError errHalted s) latch hb
  | false =>
    cases hl : legal w with
    | true =>
      rw [presentCommand_accept hf hb hl, presentCommand_accept (s := { s with ifl := latch }) hf hb hl]
      exact .refl (acceptCommand w s)
    | false =>
      rw [presentCommand_illegal hf hb hl, presentCommand_illegal (s := { s with ifl := latch }) hf hb hl]
      exact sameButIdleLatch_of_idle (s := raiseError errIllegal s) latch hb

theorem sameButIdleLatch_hostWrite (r : Reg) (w : Word) {s : State} (latch : Word) (hb : s.status.busy = false) :
    SameButIdleLatch (hostWrite r w s) (hostWrite r w { s with ifl := latch }) := by
  cases r with
  | cmd => exact sameButIdleLatch_presentCommand w latch hb
  | table i =>
    simp only [hostWrite, writeTable, hb, Bool.false_eq_true, if_false]
    exact sameButIdleLatch_of_idle (s := { s with table := _ }) latch hb
  | _ => exact sameButIdleLatch_of_idle latch hb

theorem sameButIdleLatch_accessReg (r : Reg) (t : Transfer) {s : State} (latch : Word) (hb : s.status.busy = false) :
    SameButIdleLatch (accessReg r t s) (accessReg r t { s with ifl := latch }) := by
  cases t with
  | read =>
    rw [accessReg, accessReg, hostRead_idleLatch r latch hb]
    exact sameButIdleLatch_of_idle latch (by rw [hostRead_status, hb])
  | write w => exact sameButIdleLatch_hostWrite r w latch hb

/-! ### Steps -/

theorem AlikeButIdleLatch.refl (o : Host.Outcome State Fault Refusal) : AlikeButIdleLatch o o := by
  cases o with
  | next s => exact SameButIdleLatch.refl s
  | fault r => exact Eq.refl r
  | refused r => exact Eq.refl r

/-- Outcomes that are alike both go on, in alike states, or both stop for one reason. -/
theorem AlikeButIdleLatch.cases {o p : Host.Outcome State Fault Refusal} (h : AlikeButIdleLatch o p) :
    (∃ s u, o = .next s ∧ p = .next u ∧ SameButIdleLatch s u) ∨ (∃ r, o = .fault r ∧ p = .fault r) ∨
      ∃ r, o = .refused r ∧ p = .refused r := by
  match o, p, h with
  | .next s, .next u, h => exact .inl ⟨s, u, rfl, rfl, h⟩
  | .fault r, .fault _, rfl => exact .inr (.inl ⟨r, rfl, rfl⟩)
  | .refused r, .refused _, rfl => exact .inr (.inr ⟨r, rfl, rfl⟩)

theorem alikeButIdleLatch_hostAccess (a : Access) {s : State} (latch : Word) (hb : s.status.busy = false) :
    AlikeButIdleLatch (hostAccess a s) (hostAccess a { s with ifl := latch }) := by
  cases hw : windowOffset s.basePage a.addr with
  | none =>
    simp only [hostAccess, hw]
    exact sameButIdleLatch_of_idle latch hb
  | some off =>
    cases hadm : admitted a.width off with
    | true =>
      simp only [hostAccess, hw, hadm, if_true]
      exact sameButIdleLatch_accessReg (regAt off) a.transfer latch hb
    | false =>
      simp only [hostAccess, hw, hadm, Bool.false_eq_true, if_false]
      exact .refl _

theorem alikeButIdleLatch_engineTurn {s : State} (latch : Word) (hb : s.status.busy = false) :
    AlikeButIdleLatch (engineTurn s) (engineTurn { s with ifl := latch }) := by
  simp only [engineTurn, hb, Bool.false_eq_true, if_false]
  exact sameButIdleLatch_of_idle latch hb

theorem alikeButIdleLatch_takeEvent (e : Event) {s : State} (latch : Word) (hb : s.status.busy = false) :
    AlikeButIdleLatch (takeEvent e s) (takeEvent e { s with ifl := latch }) := by
  cases e with
  | access a => exact alikeButIdleLatch_hostAccess a latch hb
  | engine => exact alikeButIdleLatch_engineTurn latch hb
  | reset => exact .refl (.next (applyReset s))
  | accessDuringReset a => exact .refl _
  | secondMaster a => exact .refl _

theorem SameButIdleLatch.step {s u : State} (h : SameButIdleLatch s u) :
    AlikeButIdleLatch (Machine.step s) (Machine.step u) := by
  cases hb : s.status.busy with
  | true =>
    rw [h.eq_of_busy hb]
    exact .refl _
  | false =>
    rw [h.1]
    cases he : s.events with
    | nil =>
      simp only [Machine.step, he]
      exact he ▸ alikeButIdleLatch_engineTurn u.ifl hb
    | cons e rest =>
      simp only [Machine.step, he]
      exact alikeButIdleLatch_takeEvent e (s := { s with events := rest }) u.ifl hb

/-! ### Runs and what is observed of them -/

theorem SameButIdleLatch.observe_eq {s u : State} (h : SameButIdleLatch s u) : observe u = observe s := by
  rw [h.1]
  rfl

theorem AlikeButIdleLatch.observedAfter_eq {o p : Host.Outcome State Fault Refusal} (h : AlikeButIdleLatch o p) :
    observedAfter p = observedAfter o := by
  rcases h.cases with ⟨s, u, rfl, rfl, hsu⟩ | ⟨r, rfl, rfl⟩ | ⟨r, rfl, rfl⟩
  · exact congrArg some hsu.observe_eq
  · rfl
  · rfl

theorem SameButIdleLatch.steps (k : Nat) {s u : State} (h : SameButIdleLatch s u) :
    AlikeButIdleLatch (Machine.steps k s) (Machine.steps k u) := by
  induction k generalizing s u with
  | zero => exact h
  | succ k ih =>
    rcases h.step.cases with ⟨s', u', hs, hu, h'⟩ | ⟨r, hs, hu⟩ | ⟨r, hs, hu⟩
    · rw [steps_succ_of_next k hs, steps_succ_of_next k hu]
      exact ih h'
    · simp only [Machine.steps, hs, hu]
      exact .refl _
    · simp only [Machine.steps, hs, hu]
      exact .refl _

/-- Settles O60: a step keeps the relation, so by induction on their length runs do. -/
theorem idleLatchIsUnobservable : Obligations.IdleLatchIsUnobservable :=
  ⟨fun _ _ h => ⟨h.observe_eq, h.step⟩,
    fun _ latch k hb => ((sameButIdleLatch_of_idle latch hb).steps k).observedAfter_eq⟩

end Sys2Proof.Machine
end

section
/-! PROOFS. O17, O23 and O57: what the host's accesses do to `TABLE` and to a command in flight (R45, R46, R52), and what it
reads after reset (R180). -/

namespace Sys2Proof.Machine

/-! ### The table through the window (R27, R45, R46) -/

theorem regAt_tableOffset (i : Byte) : regAt (BitVec.ofNat 12 (0x400 + 4 * i.toNat)) = .table i := by
  have hi := i.isLt
  obtain ⟨j, hreg, hj⟩ := regAt_table (off := 0x400 + 4 * i.toNat) (by omega) (by omega) (by omega)
  obtain rfl : j = i := BitVec.eq_of_toNat_eq (by omega)
  exact hreg

theorem step_tableAccess {s : State} {i : Byte} {t : Transfer} {rest : List Event}
    (he : s.events = .access { addr := baseAddress s.basePage + (0x400 + 4 * i.toNat), width := .bits32, transfer := t }
      :: rest) :
    step s = .next (accessReg (.table i) t { s with events := rest }) := by
  have hi := i.isLt
  rw [step_access (by omega) (by omega) he, regAt_tableOffset]

/-- A table write to an idle core stores the low byte. -/
theorem step_tableWrite {s : State} {i : Byte} {w : Word} {rest : List Event} (hb : s.status.busy = false)
    (he : s.events = .access (tableWrite s.basePage i w) :: rest) :
    step s = .next { s with events := rest, table := Memory.write s.table i.toNat (tableData w) } := by
  rw [step_tableAccess he]
  simp [accessReg, hostWrite, writeTable, hb]

/-- A table read from an idle core returns the entry, if it is written. -/
theorem step_tableRead {s : State} {i : Byte} {v : Byte} {rest : List Event} (hb : s.status.busy = false)
    (hv : Memory.read s.table i.toNat = some v) (he : s.events = .access (tableRead s.basePage i) :: rest) :
    step s = .next (recordRead (tableWord v) { s with events := rest }) := by
  have hread : readTable i { s with events := rest } = (v, { s with events := rest }) :=
    readTable_written (by simp [hb]) hv
  rw [step_tableAccess he, accessReg, hostRead, readReg, hread]

/-- The two steps: the read returns what the table holds after the write. -/
theorem steps_tableWrite_tableRead {s : State} {i j : Byte} {w : Word} {v : Byte} {rest : List Event}
    (hb : s.status.busy = false)
    (he : s.events = .access (tableWrite s.basePage i w) :: .access (tableRead s.basePage j) :: rest)
    (hv : Memory.read (Memory.write s.table i.toNat (tableData w)) j.toNat = some v) :
    ∃ t, steps 2 s = .next t ∧ t.readLog = tableWord v :: s.readLog := by
  have hread := step_tableRead (s := { s with events := .access (tableRead s.basePage j) :: rest, table := _ }) hb hv rfl
  rw [steps_succ_of_next 1 (step_tableWrite hb he), steps_succ_of_next 0 hread]
  exact ⟨_, rfl, rfl⟩

theorem tableWord_tableData (w : Word) : tableWord (tableData w) = w &&& 0xFF := by
  have h : w.toNat &&& (0xFF : Word).toNat = w.toNat % 2 ^ 8 := Nat.and_two_pow_sub_one_eq_mod w.toNat 8
  apply BitVec.eq_of_toNat_eq
  simp only [tableWord, tableData, BitVec.toNat_setWidth, BitVec.toNat_and, h]
  omega

/-- Settles O17, by the laws of a table read after a table write. -/
theorem tableWriteThenRead : Obligations.TableWriteThenRead := by
  intro s i j w rest hb he
  refine ⟨?_, fun hne v hv => ?_⟩
  · rintro rfl
    rw [← tableWord_tableData]
    exact steps_tableWrite_tableRead hb he (Memory.read_write_same _ _ _)
  · have hji : j.toNat ≠ i.toNat := fun h => hne (BitVec.eq_of_toNat_eq h).symm
    exact steps_tableWrite_tableRead hb he ((Memory.read_write_other _ _ hji).trans hv)

/-! ### A command in flight (R52, R85) -/

/-- What O57 says of two states: they agree on the command in flight and on all it works on. -/
def SameCommandInFlight (s t : State) : Prop :=
  t.ifl = s.ifl ∧ t.table = s.table ∧ t.result = s.result ∧ t.lastcmd = s.lastcmd ∧
    t.status = { s.status with err := t.status.err }

theorem sameCommandInFlight_raiseError (code : BitVec 3) (s : State) : SameCommandInFlight s (raiseError code s) :=
  ⟨rfl, rfl, rfl, rfl, rfl⟩

theorem sameCommandInFlight_hostRead (r : Reg) (s : State) : SameCommandInFlight s (hostRead r s) := by
  obtain ⟨v, n, hr⟩ := hostRead_eq r s
  rw [hr]
  exact ⟨rfl, rfl, rfl, rfl, rfl⟩

theorem sameCommandInFlight_hostAccess {a : Access} {s s' : State} (hb : s.status.busy = true)
    (h : hostAccess a s = .next s') : SameCommandInFlight s s' := by
  rcases hostAccess_cases h with rfl | ⟨r, rfl⟩ | ⟨r, w, rfl⟩
  · exact ⟨rfl, rfl, rfl, rfl, rfl⟩
  · exact sameCommandInFlight_hostRead r s
  · rcases hostWrite_of_busy r w hb with hw | ⟨code, hw⟩ <;> rw [hw]
    · exact ⟨rfl, rfl, rfl, rfl, rfl⟩
    · exact sameCommandInFlight_raiseError code s

/-- Settles O57: while `BUSY = 1` a host access is a read, a write without effect or a write dropped with a code. -/
theorem hostCannotDisturbTheCommandInFlight : Obligations.HostCannotDisturbTheCommandInFlight := by
  intro s s' a rest hb he hstep
  have ha : hostAccess a { s with events := rest } = .next s' := by
    rw [← hstep, step, he]
    rfl
  exact sameCommandInFlight_hostAccess (s := { s with events := rest }) hb ha

/-! ### Reset (R180) -/

theorem Status.reset_word : Status.reset.word = 0 := by decide

/-- Settles O23: the reset state's registers are 0 and its table lists no entry. -/
theorem resetStateHoldsTheResetValues : Obligations.ResetStateHoldsTheResetValues :=
  ⟨reset_lastcmd, Status.reset_word, rfl, fun _ => rfl⟩

end Sys2Proof.Machine
end

section
/-! PROOFS. The field product of R90 as algebra (R93): `xtime` and the loop are linear, so the product is commutative and
associative, and an inverse is unique. With it O44 and O28, the bytes of the ROM. -/

namespace Sys2Proof.Machine

/-! ### The loop of the product is linear -/

theorem ite_xor_poly (p q : Bool) :
    (if p ^^ q then poly else 0) = (if p then poly else 0) ^^^ (if q then poly else 0) := by
  cases p <;> cases q <;> rfl

theorem xtime_xor (a b : Byte) : xtime (a ^^^ b) = xtime a ^^^ xtime b := by
  simp only [xtime, BitVec.getLsbD_xor, ite_xor_poly, BitVec.setWidth_xor, BitVec.shiftLeft_xor_distrib]
  ac_rfl

/-- The loop adds to its accumulator. -/
theorem gmulLoop_xor (k : Nat) (p q a c b : Byte) :
    gmulLoop k (p ^^^ q) (a ^^^ c) b = gmulLoop k p a b ^^^ gmulLoop k q c b := by
  induction k generalizing p q a c b with
  | zero => rfl
  | succ k ih =>
    simp only [gmulLoop, xtime_xor, ← ih]
    cases b.getLsbD 0
    · rfl
    · simp only [if_true]
      congr 1
      ac_rfl

theorem gmul_xor_left (a c b : Byte) : gmul (a ^^^ c) b = gmul a b ^^^ gmul c b :=
  gmulLoop_xor 8 0 0 a c b

theorem xtime_gmulLoop (k : Nat) (p a b : Byte) :
    xtime (gmulLoop k p a b) = gmulLoop k (xtime p) (xtime a) b := by
  induction k generalizing p a b with
  | zero => rfl
  | succ k ih =>
    simp only [gmulLoop, ih]
    cases b.getLsbD 0
    · rfl
    · simp only [if_true, xtime_xor]

theorem gmul_xtime_left (a b : Byte) : gmul (xtime a) b = xtime (gmul a b) :=
  (xtime_gmulLoop 8 0 a b).symm

/-- A product with the value of a loop is the loop of the products. -/
theorem gmul_gmulLoop (k : Nat) (p c a b : Byte) :
    gmul (gmulLoop k p c a) b = gmulLoop k (gmul p b) (gmul c b) a := by
  induction k generalizing p c a with
  | zero => rfl
  | succ k ih =>
    simp only [gmulLoop, ih, gmul_xtime_left]
    cases a.getLsbD 0
    · rfl
    · simp only [if_true, gmul_xor_left]

/-! ### The laws of the product (R93) -/

@[simp] theorem gmul_zero_left (b : Byte) : gmul 0 b = 0 := by
  simpa using gmul_xor_left 0 0 b

@[simp] theorem one_gmul (b : Byte) : gmul 1 b = b := by
  have h : ∀ x ∈ allBytes, gmul 1 x = x := by decide +kernel
  exact h b (mem_allBytes b)

/-- The right factors of a double product may change places: the first product is itself a loop over `a`. -/
theorem gmul_gmul_right (c a b : Byte) : gmul (gmul c a) b = gmul (gmul c b) a :=
  calc gmul (gmul c a) b = gmulLoop 8 (gmul 0 b) (gmul c b) a := gmul_gmulLoop 8 0 c a b
    _ = gmul (gmul c b) a := by rw [gmul_zero_left]; rfl

theorem gmul_comm (a b : Byte) : gmul a b = gmul b a := by
  simpa only [one_gmul] using gmul_gmul_right 1 a b

theorem gmul_assoc (a b c : Byte) : gmul (gmul a b) c = gmul a (gmul b c) := by
  rw [gmul_comm a b, gmul_gmul_right, gmul_comm]

@[simp] theorem gmul_one (a : Byte) : gmul a 1 = a := by
  rw [gmul_comm, one_gmul]

/-- R93: a byte has at most one inverse. -/
theorem inverse_unique {a i j : Byte} (hi : gmul a i = 1) (hj : gmul a j = 1) : i = j :=
  calc i = gmul i (gmul a j) := by rw [hj, gmul_one]
    _ = gmul (gmul a i) j := by rw [← gmul_assoc, gmul_comm i a]
    _ = j := by rw [hi, one_gmul]

/-! ### The field inverse (R100) -/

@[simp] theorem ginv_zero : ginv 0 = 0 := rfl

theorem ne_zero_of_gmul_eq_one {a i : Byte} (h : gmul a i = 1) : i ≠ 0 := by
  rintro rfl
  rw [gmul, gmulLoop_zero_right] at h
  exact absurd h (by decide)

theorem mem_inverses {a i : Byte} (h : gmul a i = 1) : i ∈ inverses a :=
  List.mem_filter.mpr ⟨mem_nonzeroBytes (ne_zero_of_gmul_eq_one h), by simp [h]⟩

/-- An inverse of a byte is its field inverse. -/
theorem ginv_eq_of_gmul_eq_one {a i : Byte} (h : gmul a i = 1) : ginv a = i := by
  have ha : a ≠ 0 := ne_zero_of_gmul_eq_one ((gmul_comm i a).trans h)
  rw [ginv, if_neg ha]
  cases hl : inverses a with
  | nil => exact absurd (mem_inverses h) (by simp [hl])
  | cons j rest =>
    have hj : j ∈ inverses a := by rw [hl]; exact List.mem_cons_self
    have hone : gmul a j = 1 := by simpa using (List.mem_filter.mp hj).2
    exact inverse_unique hone h

/-! ### The ROM (R28, R130) -/

/-- The affine map backwards: the XOR of three rotations and a constant. -/
def affineInverse (y : Byte) : Byte := rotl y 1 ^^^ rotl y 3 ^^^ rotl y 6 ^^^ 0x05

theorem srom_zero : srom 0 = affine 0 := by decide +kernel

/-- Each byte of the ROM is the affine image of a byte that inverts its index. -/
theorem srom_evaluated : ∀ x ∈ allBytes,
    affine (affineInverse (srom x)) = srom x ∧ (x = 0 ∨ gmul x (affineInverse (srom x)) = 1) := by
  decide +kernel

theorem srom_eq (x : Byte) : srom x = affine (ginv x) := by
  obtain ⟨haff, rfl | hinv⟩ := srom_evaluated x (mem_allBytes x)
  · rw [srom_zero, ginv_zero]
  · rw [ginv_eq_of_gmul_eq_one hinv, haff]

/-- Settles O44: a byte of the ROM taken back through the affine map is an inverse of its index, and inverses are unique. -/
theorem romHoldsTheSbox : Obligations.RomHoldsTheSbox :=
  ⟨by decide +kernel, srom_eq⟩

/-- Settles O28: `SBOX` has no self-check to fail, and the ROM holds `affine(ginv(a))`. -/
theorem sboxCompletes : Obligations.SboxCompletes := by
  intro a b s
  have hres : sboxResult a = { ok := true, res := some (zext9 (affine (ginv a))), tbl := none } := by
    rw [sboxResult, srom_eq]
  rw [exec, execSbox, hres, completeCommand_ok s rfl]
  rfl

end Sys2Proof.Machine
end

section
/-! PROOFS. O49, the bank of 9-bit counters (R30, R146): counting is addition modulo 512, a count of at most 256 inputs is below
512, and the bank's maxima are then the maxima of the counts. -/

namespace Sys2Proof.Machine

/-! ### Counting -/

@[simp] theorem length_bankIncrement (bank : DuBank) (d : Byte) :
    (bankIncrement bank d).counters.length = bank.counters.length :=
  List.length_modify ..

/-- The counter of a bucket after one increment. -/
theorem getElem?_bankIncrement (bank : DuBank) (e d : Byte) :
    (bankIncrement bank e).counters[d.toNat]? =
      bank.counters[d.toNat]?.map (· + if e = d then 1 else 0) := by
  rw [bankIncrement, List.getElem?_modify]
  by_cases h : e = d
  · simp [h]
  · simp [h, BitVec.toNat_inj]

/-- The counter of a bucket after a list of increments: as before plus the number of them at its index, modulo 512. -/
theorem getElem?_foldl_bankIncrement (l : List Byte) (bank : DuBank) (d : Byte) :
    (l.foldl bankIncrement bank).counters[d.toNat]? =
      bank.counters[d.toNat]?.map (· + BitVec.ofNat 9 (l.count d)) := by
  induction l generalizing bank with
  | nil => simp
  | cons e rest ih =>
    rw [List.foldl_cons, ih, getElem?_bankIncrement, List.count_cons, Option.map_map]
    congr 1
    funext c
    by_cases h : e = d
    · simp [h, BitVec.ofNat_add, BitVec.add_assoc, BitVec.add_comm 1#9]
    · simp [h]

theorem length_foldl_bankIncrement (l : List Byte) (bank : DuBank) :
    (l.foldl bankIncrement bank).counters.length = bank.counters.length := by
  induction l generalizing bank with
  | nil => rfl
  | cons e rest ih => rw [List.foldl_cons, ih, length_bankIncrement]

@[simp] theorem length_allBytes : allBytes.length = 256 := by
  rw [allBytes, List.length_map, List.length_range]

theorem count_map_delta (T : Byte → Byte) (α d : Byte) (l : List Byte) :
    (l.map (delta T α)).count d = l.countP fun x => delta T α x == d :=
  List.countP_map

/-- A cleared bank after inputs of one α. -/
def countedBank (T : Byte → Byte) (bank : DuBank) (α : Byte) (inputs : List Byte) : DuBank :=
  (inputs.map (delta T α)).foldl bankIncrement { bank with counters := List.replicate 256 0 }

/-- One α is a count of all 256 inputs and its reduction (R146). -/
theorem bankAlpha_eq (T : Byte → Byte) (bank : DuBank) (α : Byte) :
    bankAlpha T bank α =
      { countedBank T bank α allBytes with
        alphaMax := (countedBank T bank α allBytes).counters.foldl nineMax 0
        overallMax := nineMax bank.overallMax ((countedBank T bank α allBytes).counters.foldl nineMax 0) } :=
  rfl

theorem getElem?_countedBank (T : Byte → Byte) (bank : DuBank) (α d : Byte) (inputs : List Byte) :
    (countedBank T bank α inputs).counters[d.toNat]? =
      some (BitVec.ofNat 9 (inputs.countP fun x => delta T α x == d)) := by
  rw [countedBank, getElem?_foldl_bankIncrement, count_map_delta,
    List.getElem?_replicate_of_lt d.isLt]
  simp

theorem length_countedBank (T : Byte → Byte) (bank : DuBank) (α : Byte) (inputs : List Byte) :
    (countedBank T bank α inputs).counters.length = 256 := by
  rw [countedBank, length_foldl_bankIncrement, List.length_replicate]

/-- A count of at most 256 inputs fits in 9 bits. -/
theorem toNat_ofNat_countP {p : Byte → Bool} {inputs : List Byte} (h : inputs.length ≤ 256) :
    (BitVec.ofNat 9 (inputs.countP p)).toNat = inputs.countP p := by
  have := List.countP_le_length (p := p) (l := inputs)
  rw [BitVec.toNat_ofNat]
  omega

/-- After all 256 inputs the counters, as numbers, are the histogram. -/
theorem map_toNat_countedBank (T : Byte → Byte) (bank : DuBank) (α : Byte) :
    (countedBank T bank α allBytes).counters.map BitVec.toNat = allBytes.map (hist T α) := by
  apply List.ext_getElem?
  intro n
  by_cases hn : n < 256
  · have hd : (BitVec.ofNat 8 n).toNat = n := by rw [BitVec.toNat_ofNat]; omega
    have hc := getElem?_countedBank T bank α (BitVec.ofNat 8 n) allBytes
    rw [hd] at hc
    rw [List.getElem?_map, hc, Option.map_some, toNat_ofNat_countP length_allBytes.le]
    simp [allBytes, hn, hist]
  · rw [List.getElem?_eq_none, List.getElem?_eq_none]
    · rw [List.length_map, length_allBytes]; omega
    · rw [List.length_map, length_countedBank]; omega

/-! ### The reduction by maximum -/

theorem toNat_nineMax (u v : Nine) : (nineMax u v).toNat = max u.toNat v.toNat := by
  rw [nineMax, apply_ite BitVec.toNat, max_def]

theorem toNat_foldl_nineMax (l : List Nine) (u : Nine) :
    (l.foldl nineMax u).toNat = (l.map BitVec.toNat).foldl max u.toNat := by
  induction l generalizing u with
  | nil => rfl
  | cons v rest ih => rw [List.foldl_cons, ih, toNat_nineMax, List.map_cons, List.foldl_cons]

/-- One α puts its largest count into the overall maximum. -/
theorem overallMax_bankAlpha (T : Byte → Byte) (bank : DuBank) (α : Byte) :
    (bankAlpha T bank α).overallMax.toNat = max bank.overallMax.toNat (alphaMax T α) := by
  have htop : ((countedBank T bank α allBytes).counters.foldl nineMax 0).toNat = alphaMax T α := by
    rw [toNat_foldl_nineMax, map_toNat_countedBank]
    rfl
  rw [bankAlpha_eq, toNat_nineMax, htop]

theorem overallMax_foldl_bankAlpha (T : Byte → Byte) (αs : List Byte) (bank : DuBank) :
    (αs.foldl (bankAlpha T) bank).overallMax.toNat = (αs.map (alphaMax T)).foldl max bank.overallMax.toNat := by
  induction αs generalizing bank with
  | nil => rfl
  | cons α rest ih => rw [List.foldl_cons, ih, overallMax_bankAlpha, List.map_cons, List.foldl_cons]

/-- Settles O49, by the exact counts of a cleared bank and its maxima as numbers. -/
theorem counterBankComputesUniformity : Obligations.CounterBankComputesUniformity := by
  intro T
  refine ⟨overallMax_foldl_bankAlpha T nonzeroBytes bankStart, fun bank α d n => ?_⟩
  have hlen : (allBytes.take n).length ≤ 256 := by
    rw [List.length_take, length_allBytes]
    exact Nat.min_le_right n 256
  refine ⟨?_, List.countP_le_length.trans hlen⟩
  rw [← toNat_ofNat_countP hlen]
  exact congrArg (Option.map BitVec.toNat) (getElem?_countedBank T bank α d (allBytes.take n))

end Sys2Proof.Machine
end

section
/-! PROOFS. O8, O15, O16, O18, O19, O20 and O55: the window as the host sees it (R40 to R46), byte lanes (R43), and which
events are a step (R42, R54, R83, R183). -/

namespace Sys2Proof.Machine

/-! ### Byte lanes (R43) -/

/-- Neighbouring fields joined are one field, and the field of all 32 bits is the word. -/
theorem wordOfLanes_laneOf (w : Word) : wordOfLanes (laneOf w 0) (laneOf w 1) (laneOf w 2) (laneOf w 3) = w := by
  unfold wordOfLanes laneOf
  rw [BitVec.extractLsb'_append_extractLsb'_eq_extractLsb' (by rfl),
    BitVec.extractLsb'_append_extractLsb'_eq_extractLsb' (by rfl),
    BitVec.extractLsb'_append_extractLsb'_eq_extractLsb' (by rfl)]
  exact BitVec.extractLsb'_eq_self

theorem getLsbD_laneOf (w : Word) (k : Nat) {j : Nat} (hj : j < 8) : (laneOf w k).getLsbD j = w.getLsbD (8 * k + j) := by
  simp [laneOf, hj]

/-- Settles O8: each lane is a field of the word, and the four fields joined are the word. -/
theorem byteLanesAreLittleEndian : Obligations.ByteLanesAreLittleEndian :=
  fun w => ⟨wordOfLanes_laneOf w, fun k _ _ hj => getLsbD_laneOf w k hj⟩

/-! ### The event due, and accesses that are no step or no concern of the core -/

/-- With an event due, the step is that event. -/
theorem step_event {s : State} {e : Event} {rest : List Event} (he : s.events = e :: rest) :
    step s = takeEvent e { s with events := rest } := by
  rw [step, he]

theorem step_hostAccess {s : State} {a : Access} {rest : List Event} (he : s.events = .access a :: rest) :
    step s = hostAccess a { s with events := rest } :=
  step_event he

theorem hostAccess_of_outside {a : Access} {s : State} (h : windowOffset s.basePage a.addr = none) :
    hostAccess a s = .next s := by
  rw [hostAccess, h]

theorem hostAccess_of_not_admitted {a : Access} {s : State} {off : BitVec 12}
    (hoff : windowOffset s.basePage a.addr = some off) (h : admitted a.width off = false) :
    hostAccess a s = .refused .accessNotAdmitted := by
  simp [hostAccess, hoff, h]

/-- Settles O18: the address has its offset in the window, and the offset or the width is not admitted. -/
theorem unadmittedAccessIsRefused : Obligations.UnadmittedAccessIsRefused := by
  intro s off width t rest hoff hbad he
  rw [step_hostAccess he]
  exact hostAccess_of_not_admitted (windowOffset_of_lt s.basePage hoff) (not_admitted hbad)

/-- Settles O19: an address outside the window has no offset. -/
theorem accessOutsideTheWindowChangesNothing : Obligations.AccessOutsideTheWindowChangesNothing := by
  intro s a rest hout he
  rw [step_hostAccess he]
  exact hostAccess_of_outside (windowOffset_outside hout)

/-- Settles O20: neither event is a step of the core. -/
theorem unadmittedEventsAreRefused : Obligations.UnadmittedEventsAreRefused :=
  fun _ _ _ => ⟨step_event, step_event⟩

/-! ### Admitted events are steps (R42, R83, R180) -/

/-- Under the invariant the engine's turn is a step: idle, it passes, and else the latch holds a command. -/
theorem exists_engineTurn {s : State} (h : StateInv s) : ∃ s', engineTurn s = .next s' := by
  cases hb : s.status.busy with
  | false => exact ⟨s, by simp [engineTurn, hb]⟩
  | true =>
    obtain ⟨s', hs', -⟩ := (h.inFlight hb).engineTurn_completes
    exact ⟨s', hs'⟩

theorem exists_takeEvent {s : State} (h : StateInv s) {e : Event} (hadm : e.admitted s.basePage = true) :
    ∃ s', takeEvent e s = .next s' := by
  cases e with
  | access a => exact hostAccess_of_admitted hadm
  | engine => exact exists_engineTurn h
  | reset => exact ⟨applyReset s, rfl⟩
  | accessDuringReset a => simp [Event.admitted] at hadm
  | secondMaster a => simp [Event.admitted] at hadm

/-- Settles O55, by the event due: with none, the engine takes its turn. -/
theorem admittedEventsNeverStop : Obligations.AdmittedEventsNeverStop := by
  intro s hinv hadm
  cases he : s.events with
  | nil =>
    rw [step, he]
    exact exists_engineTurn hinv
  | cons e rest =>
    rw [step_event he]
    have hrest : StateInv { s with events := rest } := hinv.with_own_fields s.draws s.readLog rest
    exact exists_takeEvent hrest (hadm e (by rw [he]; rfl))

/-! ### The map of the window outside `TABLE` (R41) -/

theorem regAt_outsideTable {off : Nat} (h : off < 0x1000) (ht : off < 0x400 ∨ 0x7FC < off) :
    regAt (BitVec.ofNat 12 off) =
      if off = 0x000 then .cmd
      else if off = 0x004 then .status
      else if off = 0x008 then .result
      else if off = 0x00C then .id
      else .reserved := by
  split_ifs with h0 h4 h8 hC
  · rw [h0]; rfl
  · rw [h4]; rfl
  · rw [h8]; rfl
  · rw [hC]; rfl
  · exact regAt_reserved h ht h0 h4 h8 hC

/-! ### Host reads (R45) -/

theorem usesTable_iff (w : Word) : usesTable w = true ↔ opField w = 0x5 ∨ opField w = 0x6 := by
  simp [usesTable]

/-- A read of an entry that a command is using, or of an unwritten entry, is a draw. -/
theorem readTable_free {i : Byte} {s : State}
    (h : (s.status.busy && usesTable s.ifl) = true ∨ Memory.read s.table i.toNat = none) :
    readTable i s = drawByte s := by
  unfold readTable
  split
  · rfl
  · next hfree =>
    rcases h with hused | hnone
    · exact absurd hused hfree
    · rw [hnone]

theorem hostRead_table_free {i : Byte} {s : State}
    (h : (s.status.busy && usesTable s.ifl) = true ∨ Memory.read s.table i.toNat = none) :
    hostRead (.table i) s =
      { s with readLog := tableWord (Config.drawByte s.draws) :: s.readLog, draws := s.draws + 1 } := by
  rw [hostRead, readReg, readTable_free h]
  rfl

theorem hostRead_table_written {i : Byte} {s : State} {v : Byte}
    (hb : (s.status.busy && usesTable s.ifl) = false) (hv : Memory.read s.table i.toNat = some v) :
    hostRead (.table i) s = recordRead (tableWord v) s := by
  rw [hostRead, readReg, readTable_written hb hv]

/-- What a read outside `TABLE` returns, by its offset (R41, R45). -/
def registerWord (s : State) (off : Nat) : Word :=
  if off = 0x000 then s.lastcmd
  else if off = 0x004 then
    BitVec.ofNat 32 (s.status.err.toNat * 256 + s.status.fatal.toNat * 4 + s.status.done.toNat * 2
      + s.status.busy.toNat)
  else if off = 0x008 then s.result.setWidth 32
  else if off = 0x00C then 0x47463807
  else 0

/-- A read outside `TABLE` returns the register at the offset, and takes no draw. -/
theorem readReg_outsideTable {s : State} {off : Nat} (h : off < 0x1000) (ht : off < 0x400 ∨ 0x7FC < off) :
    readReg (regAt (BitVec.ofNat 12 off)) s = (registerWord s off, s) := by
  rw [regAt_outsideTable h ht, registerWord, ← Status.word_eq]
  split_ifs <;> rfl

theorem hostRead_outsideTable {s : State} {off : Nat} (h : off < 0x1000) (ht : off < 0x400 ∨ 0x7FC < off) :
    hostRead (regAt (BitVec.ofNat 12 off)) s = recordRead (registerWord s off) s := by
  rw [hostRead, readReg_outsideTable h ht]

/-- Settles O15: in the table's range by the entry that the offset names, elsewhere by the register. -/
theorem hostReadReturnsTheRegister : Obligations.HostReadReturnsTheRegister := by
  intro s off rest hal hlt he inTable entry inFlight
  have hused : (s.status.busy && usesTable s.ifl) = true ↔ inFlight := by
    rw [Bool.and_eq_true, usesTable_iff]
  have hstep := step_access hal hlt he
  refine ⟨?_, ?_, fun hout => ?_⟩
  · rintro ⟨⟨hlo, hhi⟩, hfree⟩
    obtain ⟨i, hreg, hi⟩ := regAt_table hal hlo hhi
    rw [hstep, hreg]
    exact congrArg Host.Outcome.next (hostRead_table_free (hfree.imp hused.mpr (by rw [hi]; exact id)))
  · rintro v ⟨⟨hlo, hhi⟩, hidle, hv⟩
    obtain ⟨i, hreg, hi⟩ := regAt_table hal hlo hhi
    rw [hstep, hreg]
    have hfree := Bool.eq_false_iff.mpr (mt hused.mp hidle)
    exact congrArg Host.Outcome.next (hostRead_table_written hfree (by rw [hi]; exact hv))
  · rw [hstep]
    exact congrArg Host.Outcome.next (hostRead_outsideTable hlt (by omega))

/-! ### Host writes (R46) -/

theorem writeTable_busy {i : Byte} {w : Word} {s : State} (hb : s.status.busy = true) :
    writeTable i w s = raiseError errTblBusy s := by
  rw [writeTable, if_pos hb]

theorem writeTable_idle {i : Byte} {w : Word} {s : State} (hb : s.status.busy = false) :
    writeTable i w s = { s with table := Memory.write s.table i.toNat (tableData w) } := by
  simp [writeTable, hb]

/-- A write at an offset that is neither `CMD` nor in `TABLE` has no effect (R26, R46). -/
theorem hostWrite_elsewhere {s : State} {off : Nat} (w : Word) (h : off < 0x1000) (h0 : off ≠ 0x000)
    (ht : off < 0x400 ∨ 0x7FC < off) : hostWrite (regAt (BitVec.ofNat 12 off)) w s = s := by
  rw [regAt_outsideTable h ht, if_neg h0]
  split_ifs <;> rfl

/-- Settles O16, by the register that the offset names. -/
theorem hostWriteEffects : Obligations.HostWriteEffects := by
  intro s off w rest hal hlt he
  have hstep := step_access hal hlt he
  refine ⟨?_, fun hlo hhi hb => ?_, fun hlo hhi hb => ?_, fun h0 ht => ?_⟩
  · rintro rfl
    exact hstep
  · obtain ⟨i, hreg, -⟩ := regAt_table hal hlo hhi
    rw [hstep, hreg]
    exact congrArg Host.Outcome.next (writeTable_busy hb)
  · obtain ⟨i, hreg, hi⟩ := regAt_table hal hlo hhi
    rw [hstep, hreg, ← hi]
    exact congrArg Host.Outcome.next (writeTable_idle hb)
  · rw [hstep]
    exact congrArg Host.Outcome.next (hostWrite_elsewhere w hlt h0 ht)

end Sys2Proof.Machine
end

section
/-! PROOFS. O1 to O6, the encoding (R60 to R71): a command's word is four byte lanes and a word is its fields joined, so the
decoder and the encoder are inverse; the legal words are the words of the commands. -/

namespace Sys2Proof

/-! ### The lanes and the fields of a command word (R61) -/

/-- R70's shape is `RSV1 = 0`, then `B`, `A` and the low byte. -/
theorem commandWord_eq_wordOfLanes (b a low : Byte) : commandWord b a low = wordOfLanes low a b 0 := by
  unfold commandWord wordOfLanes
  rw [← BitVec.setWidth_eq (0 ++ b ++ a ++ low), BitVec.setWidth_append_append_append_eq_shiftLeft_setWidth_or]
  simp

/-- A field of the low byte. -/
theorem extractLsb'_commandWord_low (b a low : Byte) {start len : Nat} (h : start + len ≤ 8) :
    (commandWord b a low).extractLsb' start len = low.extractLsb' start len := by
  rw [commandWord_eq_wordOfLanes]
  exact BitVec.extractLsb'_append_eq_of_add_le h

@[simp] theorem opField_commandWord (b a low : Byte) : opField (commandWord b a low) = low.extractLsb' 0 4 :=
  extractLsb'_commandWord_low b a low (by decide)

@[simp] theorem methField_commandWord (b a low : Byte) : methField (commandWord b a low) = low.extractLsb' 4 2 :=
  extractLsb'_commandWord_low b a low (by decide)

@[simp] theorem rsv0Field_commandWord (b a low : Byte) : rsv0Field (commandWord b a low) = low.extractLsb' 6 2 :=
  extractLsb'_commandWord_low b a low (by decide)

@[simp] theorem laneOf_zero_commandWord (b a low : Byte) : laneOf (commandWord b a low) 0 = low :=
  (extractLsb'_commandWord_low b a low (by decide)).trans BitVec.extractLsb'_eq_self

@[simp] theorem aField_commandWord (b a low : Byte) : aField (commandWord b a low) = a := by
  rw [commandWord_eq_wordOfLanes, aField, wordOfLanes, BitVec.extractLsb'_append_eq_of_le (by decide)]
  exact BitVec.extractLsb'_append_eq_right

@[simp] theorem bField_commandWord (b a low : Byte) : bField (commandWord b a low) = b := by
  rw [commandWord_eq_wordOfLanes, bField, wordOfLanes, BitVec.extractLsb'_append_eq_of_le (by decide),
    BitVec.extractLsb'_append_eq_of_le (by decide)]
  exact BitVec.extractLsb'_append_eq_right

@[simp] theorem rsv1Field_commandWord (b a low : Byte) : rsv1Field (commandWord b a low) = 0 := by
  rw [commandWord_eq_wordOfLanes, rsv1Field, wordOfLanes, BitVec.extractLsb'_append_eq_of_le (by decide),
    BitVec.extractLsb'_append_eq_of_le (by decide), BitVec.extractLsb'_append_eq_of_le (by decide)]
  exact BitVec.extractLsb'_eq_self

theorem laneOf_zero_eq_append (w : Word) : laneOf w 0 = rsv0Field w ++ methField w ++ opField w := by
  unfold rsv0Field methField opField
  rw [BitVec.extractLsb'_append_extractLsb'_eq_extractLsb' (by rfl),
    BitVec.extractLsb'_append_extractLsb'_eq_extractLsb' (by rfl)]
  rfl

theorem eq_commandWord {w : Word} (h : rsv1Field w = 0) : w = commandWord (bField w) (aField w) (laneOf w 0) :=
  calc w
    _ = wordOfLanes (laneOf w 0) (aField w) (bField w) (rsv1Field w) := (Machine.wordOfLanes_laneOf w).symm
    _ = commandWord (bField w) (aField w) (laneOf w 0) := by rw [h, commandWord_eq_wordOfLanes]

/-! ### The decoder reads a command back from its word -/

theorem decodeWord_of_reserved_zero {w : Word} (h0 : rsv0Field w = 0) (h1 : rsv1Field w = 0) :
    decodeWord w = decodeFields (opField w) (methField w) (aField w) (bField w) :=
  if_pos ⟨h1, h0⟩

theorem decodeWord_commandWord (b a : Byte) {low : Byte} (h : low.extractLsb' 6 2 = 0) :
    decodeWord (commandWord b a low) = decodeFields (low.extractLsb' 0 4) (low.extractLsb' 4 2) a b := by
  rw [decodeWord_of_reserved_zero (by rw [rsv0Field_commandWord, h]) (rsv1Field_commandWord b a low)]
  simp only [opField_commandWord, methField_commandWord, aField_commandWord, bField_commandWord]

/-- The low byte of each row is a literal, on which the opcode map computes. -/
theorem decodeWord_encode (i : Instr) : decodeWord (encode i) = .ok i := by
  cases i <;> exact decodeWord_commandWord _ _ rfl

theorem decodeBytes_wordBytes {w : Word} {i : Instr} (h : decodeWord w = .ok i) (rest : List Byte) :
    decodeBytes (wordBytes w ++ rest) = .ok (i, rest) := by
  simp only [wordBytes, List.cons_append, List.nil_append, decodeBytes, Machine.wordOfLanes_laneOf, h]

/-- Settles O1: the fields of a command's word are those it was built from, and its bytes are the lanes of the word. -/
theorem encodedCommandDecodesToItself : Obligations.EncodedCommandDecodesToItself :=
  fun i rest => ⟨decodeWord_encode i, decodeBytes_wordBytes (decodeWord_encode i) rest⟩

/-! ### The word of a decoded command is the word decoded -/

section
variable {op : BitVec 4} {meth : BitVec 2} {a b : Byte} {i : Instr}

theorem encode_of_decodePlain {row : Instr} (hrow : encode row = commandWord b a (0#2 ++ 0#2 ++ op))
    (h : decodePlain meth row = .ok i) : encode i = commandWord b a (0#2 ++ meth ++ op) := by
  unfold decodePlain at h
  split_ifs at h with h0
  cases h
  exact h0 ▸ hrow

theorem encode_of_decodeByMethod {scan eea fermat : Instr}
    (hscan : encode scan = commandWord b a (0#2 ++ 0#2 ++ op)) (heea : encode eea = commandWord b a (0#2 ++ 1#2 ++ op))
    (hfermat : encode fermat = commandWord b a (0#2 ++ 2#2 ++ op))
    (h : decodeByMethod meth scan eea fermat = .ok i) : encode i = commandWord b a (0#2 ++ meth ++ op) := by
  unfold decodeByMethod at h
  split_ifs at h with h0 h1 h2 <;> cases h
  · exact h0 ▸ hscan
  · exact h1 ▸ heea
  · exact h2 ▸ hfermat

/-- Row by row of the opcode map (R62), in the order of `OP`. -/
theorem encode_of_decodeFields (h : decodeFields op meth a b = .ok i) :
    encode i = commandWord b a (0#2 ++ meth ++ op) := by
  have hop : op = BitVec.ofNat 4 op.toNat := by simp
  rw [hop]
  unfold decodeFields at h
  generalize op.toNat = n at h ⊢
  split at h
  · exact encode_of_decodePlain rfl h
  · exact encode_of_decodePlain rfl h
  · exact encode_of_decodeByMethod rfl rfl rfl h
  · exact encode_of_decodePlain rfl h
  · exact encode_of_decodePlain rfl h
  · exact encode_of_decodeByMethod rfl rfl rfl h
  · exact encode_of_decodePlain rfl h
  · cases h

end

theorem decodeWord_ok_reserved_zero {w : Word} {i : Instr} (h : decodeWord w = .ok i) :
    rsv1Field w = 0 ∧ rsv0Field w = 0 := by
  unfold decodeWord at h
  split_ifs at h with hrsv
  exact hrsv

theorem encode_of_decodeWord {w : Word} {i : Instr} (h : decodeWord w = .ok i) : encode i = w := by
  obtain ⟨h1, h0⟩ := decodeWord_ok_reserved_zero h
  have hlow : laneOf w 0 = 0#2 ++ methField w ++ opField w := by rw [laneOf_zero_eq_append, h0]; rfl
  rw [decodeWord_of_reserved_zero h0 h1] at h
  rw [encode_of_decodeFields h, ← hlow, ← eq_commandWord h1]

/-- Settles O2: a word with `RSV1 = 0` is its other fields joined, and each row of the opcode map keeps them. -/
theorem decodedWordIsItsEncoding : Obligations.DecodedWordIsItsEncoding :=
  fun _ _ => encode_of_decodeWord

/-! ### The legal words are the words of the commands (R67) -/

theorem legal_iff_fields (w : Word) :
    legal w = true ↔ rsv1Field w = 0 ∧ rsv0Field w = 0 ∧
      ((opField w ∈ [0x2#4, 0x5#4] ∧ methField w ∈ [0#2, 1#2, 2#2]) ∨
        (opField w ∈ [0x0#4, 0x1#4, 0x3#4, 0x4#4, 0x6#4] ∧ methField w = 0)) := by
  simp only [legal, Bool.and_eq_true, Bool.or_eq_true, beq_iff_eq, decide_eq_true_eq, and_assoc]

/-- Legality does not look at the operand bytes (R66). -/
theorem legal_commandWord (b a low : Byte) : legal (commandWord b a low) = legal (commandWord 0 0 low) := by
  simp [legal]

theorem legal_encode (i : Instr) : legal (encode i) = true := by
  cases i <;> exact legal_commandWord _ _ _

theorem legal_iff_exists_decodeWord (w : Word) : legal w = true ↔ ∃ i, decodeWord w = .ok i where
  mp := exists_decodeWord_of_legal
  mpr := fun ⟨i, hi⟩ => encode_of_decodeWord hi ▸ legal_encode i

theorem legal_iff_exists_encode (w : Word) : legal w = true ↔ ∃ i, encode i = w := by
  rw [legal_iff_exists_decodeWord]
  exact exists_congr fun i => ⟨encode_of_decodeWord, fun h => h ▸ decodeWord_encode i⟩

/-! ### The eleven masked values (R67) -/

theorem encode_masked (i : Instr) : encode i &&& legalMask ∈ legalMatches := by
  cases i with
  | nop a b => exact Laws.TableMatch.nop a b
  | mul a b => exact Laws.TableMatch.mul a b
  | invScan a b => exact Laws.TableMatch.invScan a b
  | invEea a b => exact Laws.TableMatch.invEea a b
  | invFermat a b => exact Laws.TableMatch.invFermat a b
  | aff a b => exact Laws.TableMatch.aff a b
  | sbox a b => exact Laws.TableMatch.sbox a b
  | genScan a b => exact Laws.TableMatch.genScan a b
  | genEea a b => exact Laws.TableMatch.genEea a b
  | genFermat a b => exact Laws.TableMatch.genFermat a b
  | du a b => exact Laws.TableMatch.du a b

theorem laneOf_masked (w : Word) {k : Nat} (h : laneOf legalMask k = BitVec.allOnes 8) :
    laneOf (w &&& legalMask) k = laneOf w k :=
  calc laneOf (w &&& legalMask) k
    _ = laneOf w k &&& laneOf legalMask k := BitVec.extractLsb'_and
    _ = laneOf w k := by rw [h, BitVec.and_allOnes]

/-- The mask keeps the low byte and `RSV1`, and leaves the operand bytes free. -/
theorem commandWord_of_masked {w : Word} {low : Byte} (h : w &&& legalMask = low.setWidth 32) :
    commandWord (bField w) (aField w) low = w := by
  have hmasked : w &&& legalMask = commandWord 0 0 low := by simp [h, commandWord]
  have hlow : laneOf w 0 = low := by rw [← laneOf_masked w (by decide), hmasked, laneOf_zero_commandWord]
  have hrsv1 : laneOf w 3 = 0 := by
    rw [← laneOf_masked w (by decide), hmasked]
    exact rsv1Field_commandWord 0 0 low
  exact hlow ▸ (eq_commandWord hrsv1).symm

theorem exists_encode_of_masked {w : Word} (h : w &&& legalMask ∈ legalMatches) : ∃ i, encode i = w := by
  simp only [legalMatches, List.mem_cons, List.not_mem_nil, or_false] at h
  rcases h with h | h | h | h | h | h | h | h | h | h | h
  · exact ⟨.nop _ _, commandWord_of_masked h⟩
  · exact ⟨.mul _ _, commandWord_of_masked h⟩
  · exact ⟨.invScan _ _, commandWord_of_masked h⟩
  · exact ⟨.invEea _ _, commandWord_of_masked h⟩
  · exact ⟨.invFermat _ _, commandWord_of_masked h⟩
  · exact ⟨.aff _ _, commandWord_of_masked h⟩
  · exact ⟨.sbox _ _, commandWord_of_masked h⟩
  · exact ⟨.genScan _ _, commandWord_of_masked h⟩
  · exact ⟨.genEea _ _, commandWord_of_masked h⟩
  · exact ⟨.genFermat _ _, commandWord_of_masked h⟩
  · exact ⟨.du _ _, commandWord_of_masked h⟩

theorem legal_iff_masked (w : Word) : legal w = true ↔ w &&& legalMask ∈ legalMatches := by
  rw [legal_iff_exists_encode]
  exact ⟨fun ⟨i, hi⟩ => hi ▸ encode_masked i, exists_encode_of_masked⟩

/-- Settles O3: legal words and words with a masked value of the table are both the words of the commands. -/
theorem legalByFieldsAndByMask : Obligations.LegalByFieldsAndByMask :=
  fun w => ⟨legal_iff_fields w, legal_iff_masked w⟩

/-! ### Why the decoder rejects a word (R63, R65, R68) -/

theorem decodeWord_of_reserved_set {w : Word} (h : rsv0Field w ≠ 0 ∨ rsv1Field w ≠ 0) :
    decodeWord w = .error .reservedBits :=
  if_neg fun ⟨h1, h0⟩ => h.elim (absurd h0) (absurd h1)

theorem decodeFields_of_reservedOp {op : BitVec 4} (meth : BitVec 2) (a b : Byte) (hop : 7 ≤ op.toNat) :
    decodeFields op meth a b = .error .reservedOp := by
  unfold decodeFields
  split
  case h_8 => rfl
  all_goals omega

theorem decodeFields_of_third_method {op : BitVec 4} (a b : Byte) (hop : op ∈ [0x2#4, 0x5#4]) :
    decodeFields op 3 a b = .error .illegalMethod := by
  simp only [List.mem_cons, List.not_mem_nil, or_false] at hop
  rcases hop with rfl | rfl <;> rfl

theorem decodeFields_of_unwanted_method {op : BitVec 4} {meth : BitVec 2} (a b : Byte)
    (hop : op ∈ [0x0#4, 0x1#4, 0x3#4, 0x4#4, 0x6#4]) (hmeth : meth ≠ 0) :
    decodeFields op meth a b = .error .illegalMethod := by
  simp only [List.mem_cons, List.not_mem_nil, or_false] at hop
  rcases hop with rfl | rfl | rfl | rfl | rfl <;> exact if_neg hmeth

/-- Settles O4: reserved bits are looked at first, then `OP`, then `METH`. -/
theorem decoderRejectsExactlyIllegalWords : Obligations.DecoderRejectsExactlyIllegalWords := by
  intro w
  refine ⟨legal_iff_exists_decodeWord w, decodeWord_of_reserved_set, fun h0 h1 hop => ?_, fun h0 h1 hop hmeth => ?_,
    fun h0 h1 hop hmeth => ?_⟩ <;> rw [decodeWord_of_reserved_zero h0 h1]
  · exact decodeFields_of_reservedOp _ _ _ hop
  · rw [hmeth]
    exact decodeFields_of_third_method _ _ hop
  · exact decodeFields_of_unwanted_method _ _ hop hmeth

/-! ### Words written out -/

/-- Settles O5: each is the word of the command listed. -/
theorem writtenWordsDecode : Obligations.WrittenWordsDecode :=
  ⟨decodeWord_encode (.nop 0xFF 0xFF), decodeWord_encode (.mul 0x57 0x83), decodeWord_encode (.invScan 0x53 0),
    decodeWord_encode (.invEea 0x53 0), decodeWord_encode (.invFermat 0x53 0), decodeWord_encode (.aff 0 0xFF),
    decodeWord_encode (.sbox 0x53 0), decodeWord_encode (.genScan 0xFF 0xFF), decodeWord_encode (.genEea 0 0),
    decodeWord_encode (.genFermat 0 0), decodeWord_encode (.du 0xFF 0)⟩

/-! ### The assembler (R70, R71) -/

theorem canonical_of_assembleCore {line : Asm} {i : Instr} (h : assembleCore line = some i) : i.canonical = true := by
  cases line <;> cases h <;> rfl

theorem canonical_of_assemble {line : Asm} {i : Instr} (h : assemble line = some i) : i.canonical = true := by
  unfold assemble at h
  split_ifs at h
  exact canonical_of_assembleCore h

@[simp] theorem byteLiteral_toNat (b : Byte) : byteLiteral b.toNat = true := decide_eq_true b.isLt

theorem map_encode_assemble {line : Asm} {i : Instr} (hwf : line.wf = true)
    (hcore : assembleCore (expandPseudo line) = some i) : (assemble line).map encode = some (encode i) := by
  rw [assemble, if_pos hwf, hcore]
  rfl

theorem commandWord_zero (a low : Byte) : commandWord 0 a low = a.setWidth 32 <<< 8 ||| low.setWidth 32 := by
  simp [commandWord]

/-- The word of a line with the one literal `a`. -/
theorem map_encode_assemble_unary {line : Asm} {i : Instr} (a low : Byte) (hwf : line.wf = byteLiteral a.toNat)
    (hcore : assembleCore (expandPseudo line) = some i) (henc : encode i = commandWord 0 (BitVec.ofNat 8 a.toNat) low) :
    (assemble line).map encode = some (a.setWidth 32 <<< 8 ||| low.setWidth 32) := by
  rw [map_encode_assemble (hwf.trans (byteLiteral_toNat a)) hcore, henc, commandWord_zero, BitVec.ofNat_toNat,
    BitVec.setWidth_eq]

theorem map_encode_assemble_mul (a b : Byte) :
    (assemble (.mul a.toNat b.toNat)).map encode = some (commandWord b a 0x01) := by
  rw [map_encode_assemble (by simp [Asm.wf]) rfl]
  simp [encode]

theorem assemble_sqr (n : Nat) : assemble (.sqr n) = assemble (.mul n n) := by
  have hwf : (Asm.mul n n).wf = (Asm.sqr n).wf := Bool.and_self _
  rw [assemble, assemble, hwf]
  rfl

/-- Settles O6: clause by clause of R70 and R71. -/
theorem assemblerWritesTheWordOfEachLine : Obligations.AssemblerWritesTheWordOfEachLine := by
  refine ⟨fun _ _ => canonical_of_assemble, fun a b => ?_, fun n => ⟨rfl, rfl, assemble_sqr n⟩⟩
  exact ⟨rfl, map_encode_assemble_mul a b, map_encode_assemble_unary a 0x02 rfl rfl rfl,
    map_encode_assemble_unary a 0x12 rfl rfl rfl, map_encode_assemble_unary a 0x22 rfl rfl rfl,
    map_encode_assemble_unary a 0x03 rfl rfl rfl, map_encode_assemble_unary a 0x04 rfl rfl rfl, rfl, rfl, rfl, rfl⟩

end Sys2Proof
end

section
/-! PROOFS. O9 to O14, how a command comes to run (R80 to R85): a write to `CMD` presents its word, and the engine's turn
completes the command in the latch. O24 to O27 and O29 to O31, what each command but `SBOX` then leaves (R84). -/

namespace Sys2Proof.Machine

/-! ### A command presented through the window (R80, R81) -/

/-- A write to `CMD` presents its word, wherever the window is. -/
theorem step_issue {s : State} {w : Word} {rest : List Event} (he : s.events = .access (issue s.basePage w) :: rest) :
    step s = .next (presentCommand w { s with events := rest }) :=
  step_access (off := 0x000) rfl (by decide) he

theorem Status.accepted_of_not_halted {st : Status} (h : st.fatal = false) :
    st.accepted = { busy := true, done := false, fatal := false, err := 0 } := by
  rw [Status.accepted, h]
  rfl

/-- Settles O9: a write to `CMD` presents its word, and an idle core accepts a legal one. -/
theorem legalWriteToIdleCoreIsAccepted : Obligations.LegalWriteToIdleCoreIsAccepted := by
  intro s w rest he hf hb hl
  rw [step_issue he, presentCommand_accept (s := { s with events := rest }) hf hb hl, acceptCommand,
    Status.accepted_of_not_halted hf]

/-- A word that is not accepted records one code: HALTED, then CMD_BUSY, then ILLEGAL (R163). -/
theorem presentCommand_rejected {s : State} {w : Word}
    (h : ¬ (s.status.fatal = false ∧ s.status.busy = false ∧ legal w = true)) :
    presentCommand w s =
      raiseError (if s.status.fatal = true then 4 else if s.status.busy = true then 2 else 1) s := by
  cases hf : s.status.fatal with
  | true => exact presentCommand_halted w hf
  | false =>
    cases hb : s.status.busy with
    | true => exact presentCommand_busy w hf hb
    | false =>
      have hl : legal w = false := Bool.eq_false_iff.mpr fun hl => h ⟨hf, hb, hl⟩
      exact presentCommand_illegal hf hb hl

/-- Settles O10: a write to `CMD` presents its word, and a word not accepted records its code. -/
theorem otherWriteToCmdIsRejected : Obligations.OtherWriteToCmdIsRejected := by
  intro s w rest he hrej
  rw [step_issue he, presentCommand_rejected (s := { s with events := rest }) hrej]
  rfl

/-! ### The engine's turn (R83, R85) -/

theorem engineTurn_idle {s : State} (hb : s.status.busy = false) : engineTurn s = .next s := by
  simp [engineTurn, hb]

theorem engineTurn_of_decode {s : State} {i : Instr} (hb : s.status.busy = true) (hi : decodeWord s.ifl = .ok i) :
    engineTurn s = exec i s := by
  simp [engineTurn, hb, fetchLatch_of_decode hi]

theorem step_noEvent {s : State} (he : s.events = []) : step s = engineTurn s := by
  rw [step, he]

theorem step_engine {s : State} {rest : List Event} (he : s.events = .engine :: rest) :
    step s = engineTurn { s with events := rest } :=
  step_event he

/-- With its turn due, the engine runs the command in the latch. -/
theorem step_engine_of_decode {s : State} {i : Instr} {rest : List Event} (he : s.events = .engine :: rest)
    (hb : s.status.busy = true) (hi : decodeWord s.ifl = .ok i) : step s = exec i { s with events := rest } := by
  rw [step_engine he]
  exact engineTurn_of_decode hb hi

/-- Settles O11: at either kind of step the engine takes its turn, and fetches the command in the latch. -/
theorem stepRunsTheCommandInTheLatch : Obligations.StepRunsTheCommandInTheLatch := by
  refine fun s i hb hi => ⟨fun he => ?_, fun rest he => step_engine_of_decode he hb hi⟩
  rw [step_noEvent he, engineTurn_of_decode hb hi]

/-- Settles O12: at either kind of step the engine has its turn, and an idle engine's turn passes. -/
theorem idleEngineChangesNothing : Obligations.IdleEngineChangesNothing := by
  refine fun s hb => ⟨fun he => ?_, fun rest he => ?_⟩
  · rw [step_noEvent he, engineTurn_idle hb]
  · rw [step_engine he]
    exact engineTurn_idle hb

theorem steps_one (s : State) : steps 1 s = step s := by
  rw [steps]
  cases step s <;> rfl

/-- Settles O13: the word of a command is legal, so it is accepted, and it is what the engine then decodes. -/
theorem issuedCommandRuns : Obligations.IssuedCommandRuns := by
  intro s i rest he hf hb
  have haccept := legalWriteToIdleCoreIsAccepted s (encode i) (.engine :: rest) he hf hb (legal_encode i)
  rw [steps_succ_of_next 1 haccept, steps_one]
  exact step_engine_of_decode rfl rfl (decodeWord_encode i)

theorem withFetchWord_word (s : State) (w : Word) :
    s.withFetchWord 32 w.toNat = { acceptCommand w s with events := .engine :: s.events } := by
  rw [State.withFetchWord, Nat.mod_eq_of_lt w.isLt, BitVec.ofNat_toNat, BitVec.setWidth_eq]

/-- Settles O14: the engine's turn is due, and the latch holds the word of the command. -/
theorem placedWordRunsNext : Obligations.PlacedWordRunsNext := by
  intro s i
  rw [withFetchWord_word]
  exact step_engine_of_decode rfl rfl (decodeWord_encode i)

/-! ### Commands with a value (R84) -/

/-- A completed command that has a value and no table writes `RESULT`, `BUSY` and `DONE`. -/
theorem completeCommand_value (v : Nine) (s : State) :
    completeCommand { ok := true, res := some v, tbl := none } s =
      { s with result := v, status := { s.status with busy := false, done := true } } :=
  completeCommand_ok s rfl

/-- Settles O24: `NOP` has no value and no table. -/
theorem nopCompletes : Obligations.NopCompletes :=
  fun _ _ s => congrArg Host.Outcome.next (completeCommand_ok (r := nopResult) s rfl)

/-- Settles O25: the value of `MUL` is the field product. -/
theorem mulCompletes : Obligations.MulCompletes :=
  fun a b s => congrArg Host.Outcome.next (completeCommand_value (zext9 (gmul a b)) s)

/-- Settles O27: the value of `AFF` is the affine transform. -/
theorem affCompletes : Obligations.AffCompletes :=
  fun a _ s => congrArg Host.Outcome.next (completeCommand_value (zext9 (affine a)) s)

/-! ### The three methods find the field inverse (R100, R105) -/

theorem invBy_zero (m : Method) : invBy m 0 = (true, 0) := by
  cases m <;> rfl

/-- R105: what a method finds for a nonzero byte is an inverse, and a byte has one. -/
theorem invBy_eq (m : Method) (a : Byte) : invBy m a = (true, ginv a) := by
  by_cases h : a = 0
  · rw [h, invBy_zero, ginv_zero]
  · exact Prod.ext (invBy_found m a) (ginv_eq_of_gmul_eq_one (gmul_invBy m h)).symm

theorem invChecked_eq (m : Method) (a : Byte) : invChecked m a = (true, ginv a) := by
  have hval : (invChecked m a).2 = (invBy m a).2 := rfl
  exact Prod.ext (invChecked_ok m a) (by rw [hval, invBy_eq])

theorem invResult_eq (m : Method) (a : Byte) :
    invResult m a = { ok := true, res := some (zext9 (ginv a)), tbl := none } := by
  rw [invResult, invChecked_eq]

/-- By every method `INV` completes with the field inverse. -/
theorem completeCommand_invResult (m : Method) (a : Byte) (s : State) :
    completeCommand (invResult m a) s =
      { s with result := zext9 (ginv a), status := { s.status with busy := false, done := true } } := by
  rw [invResult_eq, completeCommand_value]

/-- Settles O26, for each method by `completeCommand_invResult`. -/
theorem invCommandsComplete : Obligations.InvCommandsComplete :=
  fun a _ s =>
    ⟨congrArg Host.Outcome.next (completeCommand_invResult .scan a s),
      congrArg Host.Outcome.next (completeCommand_invResult .eea a s),
      congrArg Host.Outcome.next (completeCommand_invResult .fermat a s)⟩

/-! ### `GEN` (R134) -/

theorem genResult_eq (m : Method) : genResult m = { ok := true, res := none, tbl := some (Memory.ofFn sboxFn) } := by
  have htbl : (fun x => affine (invChecked m x).2) = sboxFn := funext fun x => by rw [invChecked_eq, sboxFn]
  rw [← genResult_ok m, ← htbl]
  rfl

/-- By every method `GEN` completes with the S-box in `TABLE`, and leaves `RESULT` alone. -/
theorem completeCommand_genResult (m : Method) (s : State) :
    completeCommand (genResult m) s =
      { s with table := Memory.ofFn sboxFn, status := { s.status with busy := false, done := true } } := by
  rw [genResult_eq, completeCommand_ok s rfl]
  rfl

/-- Settles O29, with the table of the S-box function for each method. -/
theorem genCommandsComplete : Obligations.GenCommandsComplete :=
  fun _ _ s =>
    ⟨Memory.ofFn sboxFn, Memory.read_ofFn sboxFn, Memory.wf_ofFn sboxFn,
      congrArg Host.Outcome.next (completeCommand_genResult .scan s),
      congrArg Host.Outcome.next (completeCommand_genResult .eea s),
      congrArg Host.Outcome.next (completeCommand_genResult .fermat s)⟩

/-! ### `DU` (R147) -/

theorem Memory.allWritten_iff (t : List Host.Cell) :
    Memory.allWritten t = true ↔ ∀ x : Byte, (Memory.read t x.toNat).isSome = true := by
  rw [Memory.allWritten, List.all_eq_true]
  exact ⟨fun h x => h x (mem_allBytes x), fun h x _ => h x⟩

theorem Memory.toFn_of_read {t : List Host.Cell} {T : Byte → Byte} (h : ∀ x : Byte, Memory.read t x.toNat = some (T x)) :
    Memory.toFn t = T :=
  funext fun x => by rw [Memory.toFn, h x, Option.getD_some]

theorem duValue_written {s : State} {T : Byte → Byte} (h : ∀ x : Byte, Memory.read s.table x.toNat = some (T x)) :
    duValue s = (BitVec.ofNat 9 (du T), s) := by
  have hall : Memory.allWritten s.table = true :=
    (Memory.allWritten_iff s.table).mpr fun x => by rw [h x, Option.isSome_some]
  rw [duValue, if_pos hall, Memory.toFn_of_read h]

theorem duValue_unwritten {s : State} {x : Byte} (h : Memory.read s.table x.toNat = none) :
    duValue s = drawNine s := by
  have hnot : ¬ Memory.allWritten s.table = true := fun hall => by
    simpa [h] using (Memory.allWritten_iff s.table).mp hall x
  rw [duValue, if_neg hnot]

/-- `DU` completes with the value it has, in the state that its draw leaves. -/
theorem exec_du (a b : Byte) (s : State) :
    exec (.du a b) s = .next { (duValue s).2 with
      result := (duValue s).1
      status := { (duValue s).2.status with busy := false, done := true } } :=
  congrArg Host.Outcome.next (completeCommand_value (duValue s).1 (duValue s).2)

/-- Settles O30: with every entry written, the value of `DU` is the uniformity and no draw is taken. -/
theorem duCompletesOnAWrittenTable : Obligations.DuCompletesOnAWrittenTable := by
  intro a b s T h
  rw [exec_du, duValue_written h]

/-- Settles O31: with an entry unwritten, the value of `DU` is a draw. -/
theorem duDrawsOnAnUnwrittenEntry : Obligations.DuDrawsOnAnUnwrittenEntry := by
  intro a b s x h
  rw [exec_du, duValue_unwritten h]
  rfl

end Sys2Proof.Machine
end

section
/-! PROOFS. The field product as the product of polynomials (R91, R93, R94). The residue of a polynomial modulo `POLY` is read
off its bits by `xtime`; it is additive, takes the carry-less product to `gmul`, and is what division by `POLY` leaves. -/

namespace Sys2Proof.Machine

/-! ### The laws of the product (R93) -/

theorem gmul_zero (a : Byte) : gmul a 0 = 0 := gmulLoop_zero_right 8 0 a

theorem gmul_xor_right (a b c : Byte) : gmul a (b ^^^ c) = gmul a b ^^^ gmul a c := by
  rw [gmul_comm, gmul_xor_left, gmul_comm b, gmul_comm c]

theorem existsUnique_inverse {a : Byte} (h : a ≠ 0) : ∃! i, gmul a i = 1 :=
  ⟨(invFermat a).2, gmul_invFermat h, fun _ hi => inverse_unique hi (gmul_invFermat h)⟩

/-- Settles O33: the laws of the linear loop, with the inverse that `FERMAT` finds. -/
theorem fieldProductLaws : Obligations.FieldProductLaws :=
  ⟨gmul_comm, gmul_xor_right, gmul_assoc, gmul_one, gmul_zero, fun _ => existsUnique_inverse⟩

/-! ### The residue of a polynomial modulo `POLY` -/

/-- `BitVec.xor_zero` for the numeral 0, in which the model's lemmas are stated. -/
theorem byte_xor_zero (a : Byte) : a ^^^ 0 = a := BitVec.xor_zero

/-- The polynomial `n` modulo `POLY`, by Horner's rule at `x`. -/
def residue (n : Nat) : Byte :=
  if n = 0 then 0 else xtime (residue (n / 2)) ^^^ if n.testBit 0 then 1 else 0

@[simp] theorem residue_zero : residue 0 = 0 := by
  rw [residue, if_pos rfl]

theorem residue_eq (n : Nat) : residue n = xtime (residue (n / 2)) ^^^ if n.testBit 0 then 1 else 0 := by
  by_cases h : n = 0
  · rw [h, residue_zero]
    decide
  · rw [residue, if_neg h]

theorem ite_xor_one (p q : Bool) :
    (if p ^^ q then (1 : Byte) else 0) = (if p then 1 else 0) ^^^ (if q then 1 else 0) := by
  cases p <;> cases q <;> rfl

theorem residue_xor (m n : Nat) : residue (m ^^^ n) = residue m ^^^ residue n := by
  induction m using residue.induct generalizing n with
  | case1 => simp
  | case2 m _ ih =>
    rw [residue_eq (m ^^^ n), residue_eq m, residue_eq n, Nat.xor_div_two, ih, xtime_xor, Nat.testBit_xor, ite_xor_one]
    ac_rfl

theorem residue_two_mul (n : Nat) : residue (2 * n) = xtime (residue n) := by
  have hbit : (2 * n).testBit 0 = false := by simp
  rw [residue_eq, Nat.mul_div_cancel_left n two_pos, hbit]
  exact byte_xor_zero _

theorem residue_shiftLeft (n s : Nat) : residue (n <<< s) = xtime^[s] (residue n) := by
  induction s generalizing n with
  | zero => rfl
  | succ s ih => rw [Nat.shiftLeft_succ_inside, ih, residue_two_mul, Function.iterate_succ_apply]

/-- A polynomial of degree below 8 is its own residue. -/
theorem residue_of_lt {n : Nat} (h : n < 256) : residue n = BitVec.ofNat 8 n := by
  have hstep : ∀ m < 256, (xtime (BitVec.ofNat 8 (m / 2)) ^^^ if m.testBit 0 then 1 else 0) = BitVec.ofNat 8 m := by
    decide +kernel
  induction n using residue.induct with
  | case1 => exact residue_zero
  | case2 n _ ih => rw [residue_eq, ih (by omega), hstep n h]

@[simp] theorem residue_toNat (a : Byte) : residue a.toNat = a := by
  rw [residue_of_lt a.isLt, BitVec.ofNat_toNat, BitVec.setWidth_eq]

@[simp] theorem residue_one : residue 1 = 1 := residue_of_lt (by decide)

/-! ### The other loops of the product (R91) -/

theorem gmulEarlyLoop_eq (k : Nat) (p a b : Byte) : gmulEarlyLoop k p a b = gmulLoop k p a b := by
  induction k generalizing p a b with
  | zero => rfl
  | succ k ih =>
    rw [gmulEarlyLoop]
    split
    case isTrue h => rw [h, gmulLoop_zero_right]
    case isFalse => rw [ih, gmulLoop]

/-- The loop from the most significant bit, with `k` bits of `b` still to take: it has multiplied `a` by the bits above. -/
theorem msbFirstLoop_eq (k : Nat) (a b : Byte) :
    (List.range k).reverse.foldl (fun p i => if b.getLsbD i then xtime p ^^^ a else xtime p)
      (gmul (residue (b.toNat >>> k)) a) = gmul b a := by
  induction k with
  | zero => rw [Nat.shiftRight_zero, residue_toNat]; rfl
  | succ k ih =>
    have hbits : residue (b.toNat >>> k) =
        xtime (residue (b.toNat >>> (k + 1))) ^^^ if b.getLsbD k then 1 else 0 := by
      rw [residue_eq, ← Nat.shiftRight_succ, Nat.testBit_shiftRight, BitVec.testBit_toNat]
      rfl
    rw [List.range_succ, List.reverse_append, List.reverse_singleton, List.singleton_append, List.foldl_cons,
      ← ih, hbits, gmul_xor_left, gmul_xtime_left]
    cases b.getLsbD k
    · simp only [Bool.false_eq_true, if_false, gmul_zero_left, byte_xor_zero]
    · simp only [if_true, one_gmul]

theorem gmulMsbFirst_eq (a b : Byte) : gmulMsbFirst a b = gmul a b := by
  have hnone : b.toNat >>> 8 = 0 := Nat.shiftRight_eq_zero _ _ b.isLt
  have hloop := msbFirstLoop_eq 8 a b
  rw [hnone, residue_zero, gmul_zero_left, gmul_comm] at hloop
  exact hloop

/-- Settles O35: one loop stops where only zero bits are left, the other is Horner's rule for the same product. -/
theorem otherMultiplierLoopsAgree : Obligations.OtherMultiplierLoopsAgree :=
  fun a b => ⟨gmulEarlyLoop_eq 8 0 a b, gmulMsbFirst_eq a b⟩

/-! ### Division leaves a remainder of lower degree (R103) -/

theorem deg_of_ne_zero {p : Nat} (h : p ≠ 0) : deg p = p.log2 := if_neg h

theorem deg_lt_iff {p k : Nat} : deg p < k ↔ p < 2 ^ k := by
  by_cases h : p = 0
  · simp only [deg, h, if_true]
    exact ⟨fun _ => Nat.two_pow_pos k, fun _ => by omega⟩
  · rw [deg_of_ne_zero h, ← Nat.log2_lt h]
    omega

/-- The divisor shifted under the top bit of `n` takes that bit out. -/
theorem xor_shiftLeft_lt {n d s : Nat} (hn : n ≠ 0) (hd : d ≠ 0) (hs : n.log2 = d.log2 + s) :
    n ^^^ (d <<< s) < 2 ^ n.log2 := by
  refine Nat.lt_pow_two_of_testBit _ fun i hi => ?_
  rw [Nat.testBit_xor, Nat.testBit_shiftLeft]
  rcases Nat.eq_or_lt_of_le hi with rfl | hlt
  · have hdi : d.testBit (n.log2 - s) = true := by
      rw [hs, Nat.add_sub_cancel, Nat.testBit_log2 hd]
    rw [Nat.testBit_log2 hn, hdi, decide_eq_true (by omega : n.log2 ≥ s)]
    rfl
  · have hni : n.testBit i = false := Nat.testBit_lt_two_pow ((Nat.log2_lt hn).mp hlt)
    have hdi : d.testBit (i - s) = false := Nat.testBit_lt_two_pow ((Nat.log2_lt hd).mp (by omega))
    rw [hni, hdi, Bool.and_false, Bool.xor_false]

theorem pdivmodLoop_lt {fuel n d : Nat} (q : Nat) (hd : d ≠ 0) (hn : n < 2 ^ (d.log2 + fuel)) :
    (pdivmodLoop fuel q n d).2 < 2 ^ d.log2 := by
  induction fuel generalizing q n with
  | zero => exact hn
  | succ fuel ih =>
    rw [pdivmodLoop, deg_of_ne_zero hd]
    split
    case isTrue h =>
      have hn0 : n ≠ 0 := by
        rintro rfl
        exact absurd (deg_lt_iff.mpr (Nat.two_pow_pos d.log2)) (not_lt.mpr h)
      have hlog : n.log2 < d.log2 + (fuel + 1) := (Nat.log2_lt hn0).mpr hn
      rw [deg_of_ne_zero hn0] at h ⊢
      exact ih _ ((xor_shiftLeft_lt hn0 hd (by omega)).trans_le (Nat.pow_le_pow_right two_pos (by omega)))
    case isFalse h => exact deg_lt_iff.mp (not_le.mp h)

theorem pdivmod_lt (n : Nat) {d : Nat} (hd : d ≠ 0) : (pdivmod n d).2 < 2 ^ d.log2 :=
  pdivmodLoop_lt 0 hd (Nat.lt_log2_self.trans_le (Nat.pow_le_pow_right two_pos (by omega)))

/-! ### The remainder by `POLY` is the residue -/

theorem residue_poly : residue 0x11B = 0 := by
  rw [residue_eq, residue_of_lt (by decide)]
  decide

/-- Taking a shifted `POLY` out of a polynomial keeps its residue. -/
theorem residue_xor_poly (n s : Nat) : residue (n ^^^ 0x11B <<< s) = residue n := by
  have hzero : xtime^[s] 0 = 0 := Function.iterate_fixed (by decide) s
  rw [residue_xor, residue_shiftLeft, residue_poly, hzero, byte_xor_zero]

theorem residue_pdivmodLoop (fuel q n : Nat) : residue (pdivmodLoop fuel q n 0x11B).2 = residue n := by
  induction fuel generalizing q n with
  | zero => rfl
  | succ fuel ih =>
    rw [pdivmodLoop]
    split
    case isTrue => exact (ih _ _).trans (residue_xor_poly _ _)
    case isFalse => rfl

theorem pdivmod_poly (n : Nat) : (pdivmod n 0x11B).2 = (residue n).toNat := by
  have hlt : (pdivmod n 0x11B).2 < 256 := pdivmod_lt n (d := 0x11B) (by decide)
  rw [← residue_pdivmodLoop (n.log2 + 1) 0 n, ← pdivmod, residue_of_lt hlt]
  exact (Nat.mod_eq_of_lt hlt).symm

/-! ### The residue of the carry-less product is the field product (R91) -/

theorem iterate_xtime_gmul (k : Nat) (a : Byte) : xtime^[k] a = gmul (xtime^[k] 1) a := by
  induction k with
  | zero => exact (one_gmul a).symm
  | succ k ih => rw [Function.iterate_succ_apply', Function.iterate_succ_apply', ih, gmul_xtime_left]

/-- Adding up shifts of `p` multiplies the residue of `p` by that of the same shifts of 1. -/
theorem residue_clmulLoop (l : List Nat) (p q : Nat) {x y : Nat} (h : residue x = gmul (residue y) (residue p)) :
    residue (l.foldl (fun acc k => if q.testBit k then acc ^^^ (p <<< k) else acc) x) =
      gmul (residue (l.foldl (fun acc k => if q.testBit k then acc ^^^ (1 <<< k) else acc) y)) (residue p) := by
  induction l generalizing x y with
  | nil => exact h
  | cons k l ih =>
    rw [List.foldl_cons, List.foldl_cons]
    refine ih ?_
    split
    case isTrue =>
      rw [residue_xor, residue_xor, gmul_xor_left, h, residue_shiftLeft, residue_shiftLeft, residue_one,
        iterate_xtime_gmul]
    case isFalse => exact h

theorem residue_clmul (p q : Nat) : residue (clmul p q) = gmul (residue (clmul 1 q)) (residue p) :=
  residue_clmulLoop _ p q (by rw [residue_zero, gmul_zero_left])

theorem one_clmul : ∀ q < 256, clmul 1 q = q := by decide +kernel

/-- Settles O34: the remainder is the residue of the carry-less product, which is the field product of the operands. -/
theorem fieldProductIsThePolynomialProduct : Obligations.FieldProductIsThePolynomialProduct := by
  intro a b
  rw [pdivmod_poly, residue_clmul, one_clmul _ b.isLt, residue_toNat, residue_toNat, gmul_comm]

/-! ### `POLY` has no factor of degree 1 to 7 (R94) -/

/-- The trial division of R94. -/
theorem poly_remainder_ne_zero : ∀ d < 256, 2 ≤ d → (pdivmod 0x11B d).2 ≠ 0 := by decide +kernel

/-- Settles O36: the polynomials of degree 1 to 7 are the numbers 2 to 255. -/
theorem fieldPolynomialIsIrreducible : Obligations.FieldPolynomialIsIrreducible := by
  intro d h1 h7
  have hlow : ¬ d < 2 := fun h => absurd (deg_lt_iff (k := 1).mpr h) (not_lt.mpr h1)
  have hhigh : d < 256 := deg_lt_iff (k := 8).mp (Int.lt_add_one_of_le h7)
  exact poly_remainder_ne_zero d hhigh (not_lt.mp hlow)

end Sys2Proof.Machine
end

section
/-! PROOFS. O37 to O39, the field inverse (R100, R105, R107). The three methods find it, so it is an inverse, and inverses
are unique; that it is its own inverse, and what it fixes, follow from the laws of the product. -/

namespace Sys2Proof.Machine

/-! ### The inverse of a nonzero byte (R100) -/

theorem gmul_ginv {a : Byte} (h : a ≠ 0) : gmul a (ginv a) = 1 := by
  have hone := gmul_invBy .fermat h
  rwa [invBy_eq] at hone

theorem ginv_ne_zero {a : Byte} (h : a ≠ 0) : ginv a ≠ 0 :=
  ne_zero_of_gmul_eq_one (gmul_ginv h)

/-- Settles O37: `ginv` inverts a nonzero byte, and equals any inverse of it. -/
theorem fieldInverseIsTheUniqueInverse : Obligations.FieldInverseIsTheUniqueInverse :=
  ⟨ginv_zero, fun _ h => ⟨ginv_ne_zero h, gmul_ginv h, fun _ _ hi => (ginv_eq_of_gmul_eq_one hi).symm⟩⟩

/-! ### `METH` changes nothing (R105) -/

theorem invResult_method (m n : Method) (a : Byte) : invResult m a = invResult n a := by
  rw [invResult_eq, invResult_eq]

theorem genResult_method (m n : Method) : genResult m = genResult n := by
  rw [genResult_eq, genResult_eq]

/-- Settles O38: `INV` and `GEN` complete with a result that is the same by every method. -/
theorem inversionMethodsAgree : Obligations.InversionMethodsAgree := by
  refine ⟨invBy_eq, fun a b s => ?_⟩
  have hinv (m : Method) : Host.Outcome.next (completeCommand (invResult m a) s) = exec (.invScan a b) s := by
    rw [invResult_method m .scan]; rfl
  have hgen (m : Method) : Host.Outcome.next (completeCommand (genResult m) s) = exec (.genScan a b) s := by
    rw [genResult_method m .scan]; rfl
  exact ⟨hinv .eea, hinv .fermat, hgen .eea, hgen .fermat⟩

/-! ### `ginv` as a map of the bytes (R107) -/

/-- The product is symmetric, so a byte inverts its inverse. -/
theorem ginv_involutive : Function.Involutive ginv := by
  intro a
  by_cases h : a = 0
  · rw [h, ginv_zero, ginv_zero]
  · exact ginv_eq_of_gmul_eq_one ((gmul_comm _ _).trans (gmul_ginv h))

theorem eq_zero_of_gmul_self {c : Byte} (h : gmul c c = 0) : c = 0 := by
  by_contra hne
  have hcancel : c = 0 :=
    calc c = gmul c (gmul c (ginv c)) := by rw [gmul_ginv hne, gmul_one]
      _ = 0 := by rw [← gmul_assoc, h, gmul_zero_left]
  exact hne hcancel

/-- Squaring is additive: the two cross terms are equal and cancel. -/
theorem gmul_self_xor (a b : Byte) : gmul (a ^^^ b) (a ^^^ b) = gmul a a ^^^ gmul b b := by
  rw [gmul_xor_left, gmul_xor_right, gmul_xor_right, gmul_comm b a, BitVec.xor_assoc,
    ← BitVec.xor_assoc (gmul a b), BitVec.xor_self, BitVec.zero_xor]

/-- A byte that is its own inverse is 1, since the square of `a ^^^ 1` is then 0. -/
theorem eq_one_of_gmul_self {a : Byte} (h : gmul a a = 1) : a = 1 := by
  have hsquare : gmul (a ^^^ 1) (a ^^^ 1) = 0 := by
    rw [gmul_self_xor, h, gmul_one]
    exact BitVec.xor_self
  exact BitVec.xor_eq_zero_iff.mp (eq_zero_of_gmul_self hsquare)

theorem ginv_eq_self_iff (a : Byte) : ginv a = a ↔ a = 0 ∨ a = 1 := by
  constructor
  · intro hfix
    by_cases h : a = 0
    · exact .inl h
    · have hself := gmul_ginv h
      rw [hfix] at hself
      exact .inr (eq_one_of_gmul_self hself)
  · rintro (rfl | rfl)
    · exact ginv_zero
    · exact ginv_eq_of_gmul_eq_one (gmul_one 1)

/-- Settles O39: an involution is a bijection, and a nonzero fixed point is its own inverse. -/
theorem fieldInverseProperties : Obligations.FieldInverseProperties :=
  ⟨ginv_involutive.bijective, ginv_involutive, fun _ => gmul_ginv, ginv_eq_self_iff⟩

end Sys2Proof.Machine
end

section
/-! PROOFS. O40 to O42, the affine transform (R120 to R124). Its output bits make it a sum of rotations; rotations compose and
keep XOR, so the transform is affine, and the sum of three rotations undoes it. -/

namespace Sys2Proof.Machine

/-! ### The output bits (R120, R121) -/

theorem getLsbD_ite_one_shiftLeft (c : Bool) (n : Nat) {i : Nat} (hi : i < 8) :
    (if c then 1#8 <<< n else 0).getLsbD i = (c && decide (i = n)) := by
  cases c
  case false => simp
  case true =>
    rw [if_pos rfl, Bool.true_and, ← BitVec.twoPow_eq, BitVec.getLsbD_twoPow]
    simp only [eq_comm (a := n), Bool.and_eq_right_iff_imp, decide_eq_true_eq]
    omega

/-- The first `n` turns of `byteOfBits` set the bits below `n`. -/
theorem getLsbD_setBits (f : Nat → Bool) (n : Nat) {i : Nat} (hi : i < 8) :
    ((List.range n).foldl (fun out j => out ||| (if f j then 1#8 <<< j else 0)) 0).getLsbD i =
      (decide (i < n) && f i) := by
  induction n with
  | zero => simp
  | succ n ih =>
    rw [List.range_succ, List.foldl_append, List.foldl_cons, List.foldl_nil, BitVec.getLsbD_or, ih,
      getLsbD_ite_one_shiftLeft _ _ hi]
    by_cases h : i = n
    · simp [h]
    · have hlt : i < n + 1 ↔ i < n := by omega
      simp [h, hlt]

theorem getLsbD_byteOfBits (f : Nat → Bool) {i : Nat} (hi : i < 8) : (byteOfBits f).getLsbD i = f i := by
  rw [byteOfBits, getLsbD_setBits f 8 hi, decide_eq_true hi, Bool.true_and]

theorem getLsbD_affine (x : Byte) {i : Nat} (hi : i < 8) : (affine x).getLsbD i = affineBit x i :=
  getLsbD_byteOfBits _ hi

/-- Settles O40: the byte of the output bits has these bits. -/
theorem affineOutputBits : Obligations.AffineOutputBits :=
  ⟨fun x _ hi => getLsbD_affine x hi, by decide⟩

/-! ### Rotations (R122) -/

/-- A rotation by `k` takes bit `i` from `k` places below, around the byte. -/
theorem getLsbD_rotl (x : Byte) {k i : Nat} (hk : k < 8) (hi : i < 8) :
    (rotl x k).getLsbD i = x.getLsbD ((i + (8 - k)) % 8) := by
  rw [rotl, BitVec.getLsbD_or, BitVec.getLsbD_shiftLeft, BitVec.getLsbD_ushiftRight]
  by_cases h : i < k
  · have hmod : (i + (8 - k)) % 8 = 8 - k + i := by omega
    simp [h, hmod]
  · have hmod : (i + (8 - k)) % 8 = i - k := by omega
    have hhigh : x.getLsbD (8 - k + i) = false := BitVec.getLsbD_of_ge _ _ (by omega)
    simp [h, hi, hmod, hhigh]

@[simp] theorem rotl_zero (x : Byte) : rotl x 0 = x := by
  refine BitVec.eq_of_getLsbD_eq fun i hi => ?_
  rw [getLsbD_rotl x (by decide) hi, Nat.sub_zero, Nat.add_mod_right, Nat.mod_eq_of_lt hi]

theorem rotl_xor (x y : Byte) {k : Nat} (hk : k < 8) : rotl (x ^^^ y) k = rotl x k ^^^ rotl y k := by
  refine BitVec.eq_of_getLsbD_eq fun i hi => ?_
  simp only [BitVec.getLsbD_xor, getLsbD_rotl _ hk hi]

theorem rotl_rotl (x : Byte) {j k : Nat} (hj : j < 8) (hk : k < 8) : rotl (rotl x j) k = rotl x ((j + k) % 8) := by
  refine BitVec.eq_of_getLsbD_eq fun i hi => ?_
  have hmod (n : Nat) : n % 8 < 8 := Nat.mod_lt n (by decide)
  rw [getLsbD_rotl _ hk hi, getLsbD_rotl _ hj (hmod _), getLsbD_rotl _ (hmod _) hi]
  congr 1
  omega

theorem affine_eq_rotations (x : Byte) : affine x = affineByRotations x := by
  refine BitVec.eq_of_getLsbD_eq fun i hi => ?_
  rw [getLsbD_affine x hi, affineBit, affineByRotations]
  simp (disch := decide) only [BitVec.getLsbD_xor, getLsbD_rotl x _ hi, Nat.reduceSub]
  simp [Bool.xor_comm, Bool.xor_left_comm]

/-! ### Rows and columns (R122) -/

theorem parity_eq (x : Byte) :
    parity x = (x.getLsbD 0 ^^ x.getLsbD 1 ^^ x.getLsbD 2 ^^ x.getLsbD 3
      ^^ x.getLsbD 4 ^^ x.getLsbD 5 ^^ x.getLsbD 6 ^^ x.getLsbD 7) := by
  simp [parity, List.range_succ]

/-- Row `i` masks the five bits that output bit `i` adds up. -/
theorem parity_and_affineRows (x : Byte) {i : Nat} (hi : i < 8) :
    (parity (x &&& affineRows.getD i 0) ^^ affc.getLsbD i) = affineBit x i := by
  rw [affineBit, parity_eq]
  interval_cases i <;> simp [affineRows, Bool.xor_comm, Bool.xor_left_comm]

theorem affineByRows_eq (x : Byte) : affineByRows x = affine x := by
  refine BitVec.eq_of_getLsbD_eq fun i hi => ?_
  rw [affineByRows, getLsbD_byteOfBits _ hi, parity_and_affineRows x hi, getLsbD_affine x hi]

/-- The matrix of the columns is the matrix of the rows. -/
theorem getLsbD_affineColumns : ∀ i < 8, ∀ j < 8,
    (affineColumns.getD j 0).getLsbD i = (affineRows.getD i 0).getLsbD j := by
  decide

theorem getLsbD_ite_xor (c : Bool) (x y : Byte) (i : Nat) :
    (if c then x ^^^ y else x).getLsbD i = (x.getLsbD i ^^ (c && y.getLsbD i)) := by
  cases c <;> simp

/-- Bit `i` of the loop over the columns is the loop of `parity` over row `i`. -/
theorem getLsbD_xorColumns (x : Byte) {i : Nat} (hi : i < 8) {l : List Nat} (hl : ∀ j ∈ l, j < 8) (out : Byte) :
    (l.foldl (fun out j => if x.getLsbD j then out ^^^ affineColumns.getD j 0 else out) out).getLsbD i =
      l.foldl (fun acc j => acc ^^ (x &&& affineRows.getD i 0).getLsbD j) (out.getLsbD i) := by
  induction l generalizing out with
  | nil => rfl
  | cons j l ih =>
    obtain ⟨hj, hl⟩ := List.forall_mem_cons.mp hl
    rw [List.foldl_cons, List.foldl_cons, ih hl, getLsbD_ite_xor, getLsbD_affineColumns i hi j hj, BitVec.getLsbD_and]

theorem affineByColumns_eq (x : Byte) : affineByColumns x = affine x := by
  refine BitVec.eq_of_getLsbD_eq fun i hi => ?_
  have hloop := getLsbD_xorColumns x hi (l := List.range 8) (fun _ => List.mem_range.mp) 0
  have hzero : (0 : Byte).getLsbD i = false := BitVec.getLsbD_zero
  rw [hzero, ← parity] at hloop
  rw [affineByColumns, BitVec.getLsbD_xor, hloop, parity_and_affineRows x hi, getLsbD_affine x hi]

/-- Settles O41: each form has the output bits of the transform. -/
theorem affineFormsAgree : Obligations.AffineFormsAgree :=
  ⟨fun x => ⟨affineByRows_eq x, (affine_eq_rotations x).symm, affineByColumns_eq x⟩, by decide⟩

/-! ### A bijection, affine over XOR (R124) -/

theorem byte_xor_left_comm (a b c : Byte) : a ^^^ (b ^^^ c) = b ^^^ (a ^^^ c) := by
  ac_rfl

theorem byte_xor_cancel_left (a b : Byte) : a ^^^ (a ^^^ b) = b := by
  rw [← BitVec.xor_assoc, BitVec.xor_self, BitVec.zero_xor]

theorem affine_xor (a b : Byte) : affine (a ^^^ b) = affine a ^^^ affine b ^^^ affc := by
  simp (disch := decide) only [affine_eq_rotations, affineByRotations, rotl_xor]
  simp only [BitVec.xor_assoc, BitVec.xor_comm, byte_xor_left_comm, byte_xor_cancel_left]

/-- The constant of `affineInverse` takes back the rotations of `AFFC`. -/
theorem rotl_affc_xor : rotl affc 1 ^^^ rotl affc 3 ^^^ rotl affc 6 = 0x05 := by decide

/-- Rotated by 1, 3 and 6, the five rotations of `x` cover each rotation twice but `x` itself once. -/
theorem affineInverse_affine : Function.LeftInverse affineInverse affine := by
  intro x
  rw [affineInverse, ← rotl_affc_xor, affine_eq_rotations]
  simp (disch := decide) only [affineByRotations, rotl_xor, rotl_rotl, Nat.reduceAdd, Nat.reduceMod, rotl_zero]
  simp only [BitVec.xor_assoc, BitVec.xor_comm, byte_xor_left_comm, byte_xor_cancel_left, BitVec.xor_self, BitVec.xor_zero]

/-- Settles O42: the transform has a left inverse, and there are finitely many bytes. -/
theorem affineIsABijectionAndAffine : Obligations.AffineIsABijectionAndAffine :=
  ⟨Finite.injective_iff_bijective.mp affineInverse_affine.injective, affine_xor⟩

end Sys2Proof.Machine
end

section
/-! PROOFS. O43 and O45, the S-box (R130 to R138). The function is composed of two bijections, and `GEN` and `SBOX` both
give its values. -/

namespace Sys2Proof.Machine

/-! ### The S-box function (R131) -/

theorem sboxFn_bijective : Function.Bijective sboxFn :=
  affineIsABijectionAndAffine.1.comp ginv_involutive.bijective

theorem srom_eq_sboxFn : srom = sboxFn := funext srom_eq

/-- The ROM, evaluated as a test of each byte. -/
theorem srom_no_fixed_point_evaluated : (allBytes.all fun x => srom x != x && srom x != x ^^^ 0xFF) = true := by
  decide +kernel

theorem srom_no_fixed_point (x : Byte) : srom x ≠ x ∧ srom x ≠ x ^^^ 0xFF := by
  have htest := List.all_eq_true.mp srom_no_fixed_point_evaluated x (mem_allBytes x)
  rwa [Bool.and_eq_true, bne_iff_ne, bne_iff_ne] at htest

/-- Settles O43: it is composed of two bijections, and the ROM lists its values. -/
theorem sboxProperties : Obligations.SboxProperties := by
  refine ⟨sboxFn_bijective, ?_⟩
  rw [← srom_eq_sboxFn]
  exact ⟨by decide +kernel, srom_no_fixed_point⟩

/-! ### `GEN` and then `SBOX` (R138) -/

/-- Settles O45: both are `affine(ginv(x))`, the entry by every method of `GEN`. -/
theorem sboxReadsWhatGenWrites : Obligations.SboxReadsWhatGenWrites := by
  intro i a b x c s hi
  obtain ⟨table, hread, -, hscan, heea, hfermat⟩ := genCommandsComplete a b s
  rcases hi with rfl | rfl | rfl
  · exact ⟨_, _, _, hscan, sboxCompletes x c _, hread x, rfl⟩
  · exact ⟨_, _, _, heea, sboxCompletes x c _, hread x, rfl⟩
  · exact ⟨_, _, _, hfermat, sboxCompletes x c _, hread x, rfl⟩

end Sys2Proof.Machine
end

section
/-! PROOFS. O51, the uniformity of the S-box (R142, R148). Uniformity is a bound on the counts of the nonzero differences. For
the field inverse such a count is at most 4: besides 0 and `α`, what has a given difference solves a quadratic equation. The
affine map moves a count to another bucket and does not change it, and in one bucket the count is 4. -/

namespace Sys2Proof.Machine

/-! ### Uniformity as a bound on the counts (R142, R144) -/

theorem foldl_max_le_iff {l : List Nat} {m n : Nat} : l.foldl max m ≤ n ↔ m ≤ n ∧ ∀ k ∈ l, k ≤ n := by
  induction l generalizing m with
  | nil => simp
  | cons k l ih => rw [List.foldl_cons, ih, max_le_iff, and_assoc, List.forall_mem_cons]

theorem maxOf_le_iff {l : List Nat} {n : Nat} : maxOf l ≤ n ↔ ∀ k ∈ l, k ≤ n := by
  rw [maxOf, foldl_max_le_iff, and_iff_right n.zero_le]

theorem alphaMax_le_iff {T : Byte → Byte} {α : Byte} {n : Nat} : alphaMax T α ≤ n ↔ ∀ d, hist T α d ≤ n := by
  rw [alphaMax, maxOf_le_iff, List.forall_mem_map]
  exact ⟨fun h d => h d (mem_allBytes d), fun h d _ => h d⟩

theorem zero_notMem_nonzeroBytes : (0 : Byte) ∉ nonzeroBytes := by decide +kernel

theorem mem_nonzeroBytes_iff {x : Byte} : x ∈ nonzeroBytes ↔ x ≠ 0 :=
  ⟨fun h hx => zero_notMem_nonzeroBytes (hx ▸ h), mem_nonzeroBytes⟩

theorem du_le_iff {T : Byte → Byte} {n : Nat} : du T ≤ n ↔ ∀ α, α ≠ 0 → ∀ d, hist T α d ≤ n := by
  simp only [du, maxOf_le_iff, List.forall_mem_map, alphaMax_le_iff, mem_nonzeroBytes_iff]

theorem hist_le_du (T : Byte → Byte) {α : Byte} (h : α ≠ 0) (d : Byte) : hist T α d ≤ du T :=
  du_le_iff.mp le_rfl α h d

/-- The indices of a canonical table rise, so no two are the same. -/
theorem nodup_allBytes : allBytes.Nodup :=
  (List.pairwise_map.mp (Memory.wf_ofFn id).1).imp fun hlt heq => hlt.ne (congrArg BitVec.toNat heq)

/-- A count is at most the length of a list that holds every input with the difference. -/
theorem hist_le_length {T : Byte → Byte} {α d : Byte} {l : List Byte} (h : ∀ x, delta T α x = d → x ∈ l) :
    hist T α d ≤ l.length := by
  rw [hist, List.countP_eq_length_filter]
  exact ((nodup_allBytes.filter _).subperm fun x hx => h x (by simpa using List.of_mem_filter hx)).length_le

/-! ### The differences of the field inverse -/

theorem eq_zero_of_gmul_eq_zero {a b : Byte} (h : gmul a b = 0) (ha : a ≠ 0) : b = 0 :=
  calc b = gmul (gmul (ginv a) a) b := by rw [gmul_comm (ginv a), gmul_ginv ha, one_gmul]
    _ = 0 := by rw [gmul_assoc, h, gmul_zero]

/-- A difference of inverses, cleared of its denominators. -/
theorem gmul_delta_ginv {α x : Byte} (hx : x ≠ 0) (hxα : x ^^^ α ≠ 0) :
    gmul (gmul x (x ^^^ α)) (delta ginv α x) = α := by
  have hleft : gmul (gmul x (x ^^^ α)) (ginv x) = x ^^^ α := by
    rw [gmul_comm x, gmul_assoc, gmul_ginv hx, gmul_one]
  have hright : gmul (gmul x (x ^^^ α)) (ginv (x ^^^ α)) = x := by
    rw [gmul_assoc, gmul_ginv hxα, gmul_one]
  rw [delta, gmul_xor_right, hleft, hright, BitVec.xor_comm, byte_xor_cancel_left]

/-- The quadratic `x * (x + α)` is additive. -/
theorem quadratic_xor (α x y : Byte) :
    gmul (x ^^^ y) (x ^^^ y ^^^ α) = gmul x (x ^^^ α) ^^^ gmul y (y ^^^ α) := by
  rw [gmul_xor_right, gmul_self_xor, gmul_xor_left, gmul_xor_right, gmul_xor_right]
  ac_rfl

/-- The quadratic takes each value at most at two points, `α` apart. -/
theorem eq_or_eq_xor_of_quadratic_eq {α x y : Byte} (h : gmul x (x ^^^ α) = gmul y (y ^^^ α)) :
    x = y ∨ x = y ^^^ α := by
  have hroot : gmul (x ^^^ y) (x ^^^ y ^^^ α) = 0 := by
    rw [quadratic_xor, h, BitVec.xor_self]; rfl
  by_cases hxy : x ^^^ y = 0
  · exact .inl (BitVec.xor_eq_zero_iff.mp hxy)
  · have hα : x ^^^ y = α := BitVec.xor_eq_zero_iff.mp (eq_zero_of_gmul_eq_zero hroot hxy)
    exact .inr (by rw [← hα, BitVec.xor_comm x, byte_xor_cancel_left])

/-- Where neither input of the difference is 0, the difference determines the value of the quadratic. -/
theorem quadratic_eq_of_delta_ginv {α x : Byte} (hα : α ≠ 0) (hx : x ≠ 0) (hxα : x ^^^ α ≠ 0) :
    gmul x (x ^^^ α) = gmul α (ginv (delta ginv α x)) := by
  have hone := gmul_delta_ginv hx hxα
  have hd : delta ginv α x ≠ 0 := fun hz => hα (by rw [← hone, hz, gmul_zero])
  calc gmul x (x ^^^ α)
      = gmul (gmul (gmul x (x ^^^ α)) (delta ginv α x)) (ginv (delta ginv α x)) := by
        rw [gmul_assoc, gmul_ginv hd, gmul_one]
    _ = gmul α (ginv (delta ginv α x)) := by rw [hone]

/-- What has a given difference is 0 or `α`, or one of two points `α` apart. -/
theorem exists_inputs_of_delta_ginv {α : Byte} (hα : α ≠ 0) (d : Byte) :
    ∃ r, ∀ x, delta ginv α x = d → x ∈ [0, α, r, r ^^^ α] := by
  by_cases hex : ∃ r, r ≠ 0 ∧ r ^^^ α ≠ 0 ∧ delta ginv α r = d
  · obtain ⟨r, hr, hrα, hrd⟩ := hex
    refine ⟨r, fun x hxd => ?_⟩
    by_cases hx : x = 0
    · simp [hx]
    by_cases hxα : x ^^^ α = 0
    · simp [BitVec.xor_eq_zero_iff.mp hxα]
    have hquad : gmul x (x ^^^ α) = gmul r (r ^^^ α) := by
      rw [quadratic_eq_of_delta_ginv hα hx hxα, quadratic_eq_of_delta_ginv hα hr hrα, hxd, hrd]
    rcases eq_or_eq_xor_of_quadratic_eq hquad with h | h <;> simp [h]
  · refine ⟨0, fun x hxd => ?_⟩
    by_cases hx : x = 0
    · simp [hx]
    have hxα : x ^^^ α = 0 := by
      by_contra hne
      exact hex ⟨x, hx, hne, hxd⟩
    simp [BitVec.xor_eq_zero_iff.mp hxα]

theorem hist_ginv_le_four {α : Byte} (hα : α ≠ 0) (d : Byte) : hist ginv α d ≤ 4 := by
  obtain ⟨r, hr⟩ := exists_inputs_of_delta_ginv hα d
  exact hist_le_length hr

/-! ### The uniformity of the S-box (R148) -/

theorem delta_sboxFn (α x : Byte) : delta sboxFn α x = affine (delta ginv α x) ^^^ affc := by
  rw [delta, delta, affine_xor, BitVec.xor_assoc _ affc, BitVec.xor_self, BitVec.xor_zero]
  rfl

/-- The affine map carries each bucket to another, with its count. -/
theorem hist_sboxFn (α e : Byte) : hist sboxFn α (affine e ^^^ affc) = hist ginv α e := by
  refine List.countP_congr fun x _ => ?_
  rw [beq_iff_eq, beq_iff_eq, delta_sboxFn, BitVec.xor_left_inj, affineInverse_affine.injective.eq_iff]

theorem hist_sboxFn_le_four {α : Byte} (hα : α ≠ 0) (d : Byte) : hist sboxFn α d ≤ 4 := by
  obtain ⟨e, he⟩ := affineIsABijectionAndAffine.1.surjective (d ^^^ affc)
  have hd : d = affine e ^^^ affc := by rw [he, BitVec.xor_assoc, BitVec.xor_self, BitVec.xor_zero]
  rw [hd, hist_sboxFn]
  exact hist_ginv_le_four hα e

/-- The bucket of R148, counted in the ROM. -/
theorem hist_sboxFn_eq_four : hist sboxFn 0x01 0x1F = 4 := by
  rw [← srom_eq_sboxFn]
  decide +kernel

theorem du_sboxFn : du sboxFn = 4 := by
  have hle : du sboxFn ≤ 4 := du_le_iff.mpr fun _ => hist_sboxFn_le_four
  have hge : 4 ≤ du sboxFn := by
    rw [← hist_sboxFn_eq_four]
    exact hist_le_du sboxFn (by decide) 0x1F
  exact le_antisymm hle hge

/-- Settles O51: `GEN` writes every entry with the S-box, whose uniformity is 4. -/
theorem genThenDuReturnsFour : Obligations.GenThenDuReturnsFour := by
  intro a b c d s
  obtain ⟨table, hread, -, hscan, -, -⟩ := genCommandsComplete a b s
  refine ⟨_, hscan, (duCompletesOnAWrittenTable c d _ sboxFn hread).trans ?_⟩
  rw [du_sboxFn]
  rfl

end Sys2Proof.Machine
end

section
/-! PROOFS. O46, O47, O48 and O50, the counts and the range of the uniformity (R140 to R143, R148). A count is the number of
elements of a fiber of the difference function: the fibers partition the inputs, and `x ↦ x ^ α` pairs the elements of each. -/

namespace Sys2Proof.Machine

/-! ### The histogram as the sizes of the fibers of `delta` (R140, R141) -/

theorem toFinset_allBytes : allBytes.toFinset = Finset.univ :=
  Finset.eq_univ_iff_forall.mpr fun x => List.mem_toFinset.mpr (mem_allBytes x)

/-- The inputs that a bucket counts: a fiber of `delta T α`. -/
def bucket (T : Byte → Byte) (α d : Byte) : Finset Byte := {x | delta T α x = d}

@[simp] theorem mem_bucket {T : Byte → Byte} {α d x : Byte} : x ∈ bucket T α d ↔ delta T α x = d := by
  simp [bucket]

theorem hist_eq_card_bucket (T : Byte → Byte) (α d : Byte) : hist T α d = (bucket T α d).card := by
  rw [hist, List.countP_eq_length_filter, ← List.toFinset_card_of_nodup (nodup_allBytes.filter _)]
  congr 1
  ext x
  simp [mem_allBytes]

/-- The count over the bytes is the count over their numbers. -/
theorem hist_eq_card_fin (T : Byte → Byte) (α d : Byte) :
    hist T α d = ((Finset.univ : Finset (Fin 256)).filter fun x =>
      T (BitVec.ofFin x) ^^^ T (BitVec.ofFin x ^^^ α) = d).card := by
  rw [hist_eq_card_bucket]
  exact Finset.card_equiv BitVec.equivFin.toEquiv fun x => by simp [delta, BitVec.equivFin]

/-- The fibers partition the 256 inputs. -/
theorem sum_hist (T : Byte → Byte) (α : Byte) : (allBytes.map (hist T α)).sum = 256 :=
  calc (allBytes.map (hist T α)).sum
      = ∑ d, hist T α d := by rw [← List.sum_toFinset _ nodup_allBytes, toFinset_allBytes]
    _ = ∑ d, (bucket T α d).card := by simp only [hist_eq_card_bucket]
    _ = allBytes.toFinset.card := by
        rw [toFinset_allBytes]
        exact (Finset.card_eq_sum_card_fiberwise fun x _ => Finset.mem_coe.mpr (Finset.mem_univ (delta T α x))).symm
    _ = 256 := by rw [List.toFinset_card_of_nodup nodup_allBytes, length_allBytes]

/-- Settles O46: bytes and their numbers correspond, and the buckets partition the inputs. -/
theorem histogramCountsSumTo256 : Obligations.HistogramCountsSumTo256 := fun T α =>
  ⟨hist_eq_card_fin T α, by rw [List.length_map, length_allBytes], sum_hist T α⟩

/-! ### The uniformity is attained (R142) -/

/-- If every count were smaller, so would be their maximum. -/
theorem exists_hist_eq_du (T : Byte → Byte) : ∃ α d : Byte, α ≠ 0 ∧ hist T α d = du T := by
  by_contra hnone
  have hlt : ∀ α, α ≠ 0 → ∀ d, hist T α d < du T := fun α hα d =>
    lt_of_le_of_ne (hist_le_du T hα d) fun heq => hnone ⟨α, d, hα, heq⟩
  have hpos : 0 < du T := (Nat.zero_le _).trans_lt (hlt 1 (by decide) 0)
  have hle : du T ≤ du T - 1 := du_le_iff.mpr fun α hα d => Nat.le_sub_one_of_lt (hlt α hα d)
  omega

/-- Settles O47: a maximum is attained and bounds what it is taken over. -/
theorem uniformityIsTheLargestCount : Obligations.UniformityIsTheLargestCount := fun T =>
  ⟨exists_hist_eq_du T, fun _ d hα => hist_le_du T hα d⟩

/-! ### The range of the counts and of the uniformity (R143) -/

/-- Both inputs of a pair `x`, `x ^ α` have one difference. -/
theorem delta_xor (T : Byte → Byte) (α x : Byte) : delta T α (x ^^^ α) = delta T α x := by
  rw [delta, delta, xor_cancel_right, BitVec.xor_comm]

/-- The pairs `x`, `x ^ α` split each bucket in twos. -/
theorem even_hist (T : Byte → Byte) {α : Byte} (hα : α ≠ 0) (d : Byte) : Even (hist T α d) := by
  have hpairs : ∑ _x ∈ bucket T α d, (1 : ZMod 2) = 0 :=
    Finset.sum_involution (fun x _ => x ^^^ α) (fun _ _ => by decide) (fun _ _ _ => mt xor_left_eq_self_iff.mp hα)
      (fun x hx => by rwa [mem_bucket, delta_xor, ← mem_bucket]) (fun x _ => xor_cancel_right x α)
  rw [hist_eq_card_bucket, ← ZMod.natCast_eq_zero_iff_even, Finset.cast_card]
  exact hpairs

theorem hist_le_256 (T : Byte → Byte) (α d : Byte) : hist T α d ≤ 256 :=
  List.countP_le_length.trans length_allBytes.le

theorem hist_eq_256_iff {T : Byte → Byte} {α d : Byte} : hist T α d = 256 ↔ ∀ x, delta T α x = d := by
  rw [hist, ← length_allBytes, List.countP_eq_length]
  exact ⟨fun h x => by simpa using h x (mem_allBytes x), fun h x _ => by simpa using h x⟩

theorem hist_delta_pos (T : Byte → Byte) (α x : Byte) : 0 < hist T α (delta T α x) :=
  List.countP_pos_iff.mpr ⟨x, mem_allBytes x, beq_self_eq_true _⟩

theorem even_du (T : Byte → Byte) : Even (du T) := by
  obtain ⟨α, d, hα, hd⟩ := exists_hist_eq_du T
  exact hd ▸ even_hist T hα d

/-- Some bucket is not empty, and then it holds a pair. -/
theorem two_le_du (T : Byte → Byte) : 2 ≤ du T := by
  have hpos : 0 < du T := (hist_delta_pos T 1 0).trans_le (hist_le_du T (by decide) _)
  obtain ⟨k, hk⟩ := even_du T
  omega

theorem du_le_256 (T : Byte → Byte) : du T ≤ 256 :=
  du_le_iff.mpr fun α _ d => hist_le_256 T α d

/-- The uniformity is 256 when one bucket of a nonzero `α` holds every input. -/
theorem du_eq_256_iff {T : Byte → Byte} :
    du T = 256 ↔ ∃ α : Byte, α ≠ 0 ∧ ∀ x y, delta T α x = delta T α y := by
  constructor
  · intro hdu
    obtain ⟨α, d, hα, hd⟩ := exists_hist_eq_du T
    have hconst := hist_eq_256_iff.mp (hd.trans hdu)
    exact ⟨α, hα, fun x y => (hconst x).trans (hconst y).symm⟩
  · rintro ⟨α, hα, hconst⟩
    have hall : hist T α (delta T α 0) = 256 := hist_eq_256_iff.mpr fun x => hconst x 0
    exact le_antisymm (du_le_256 T) (hall ▸ hist_le_du T hα _)

/-- Settles O48, by the pairs in each bucket and the bucket in which the uniformity is attained. -/
theorem uniformityRange : Obligations.UniformityRange := fun T =>
  ⟨Nat.even_iff.mp (even_du T), two_le_du T, du_le_256 T, fun _ d hα => Nat.even_iff.mp (even_hist T hα d),
    du_eq_256_iff⟩

/-! ### The two tables of R148 -/

theorem delta_identity (α x : Byte) : delta (fun x => x) α x = α :=
  byte_xor_cancel_left x α

/-- Settles O50: the S-box by the quadratic behind its counts, the identity by its constant differences. -/
theorem uniformityOfTheSboxAndTheIdentity : Obligations.UniformityOfTheSboxAndTheIdentity :=
  ⟨du_sboxFn, hist_sboxFn_eq_four, du_eq_256_iff.mpr ⟨1, by decide, fun _ _ => by rw [delta_identity, delta_identity]⟩,
    fun α => hist_eq_256_iff.mpr (delta_identity α)⟩

end Sys2Proof.Machine
end

section
/-! PROOFS. O54, O58, O59 and O32, errors and the halted state (R161 to R168). A completion leaves `FATAL` and `ERR` as they are,
since no self-check fails; what remains is what a host access does to `STATUS`. -/

namespace Sys2Proof.Machine

/-! ### What a host access and an engine's turn do to `STATUS` -/

/-- An access with a next state does its transfer at a register of the window, or is outside the window. -/
theorem hostAccess_transfer {a : Access} {s s' : State} (h : hostAccess a s = .next s') :
    s' = s ∨ ∃ r, s' = accessReg r a.transfer s := by
  unfold hostAccess at h
  split at h
  · exact .inl (Host.Outcome.next.inj h).symm
  · split_ifs at h
    exact .inr ⟨_, (Host.Outcome.next.inj h).symm⟩

/-- R44, R45: an access that writes nothing leaves `STATUS` as it is. -/
theorem hostAccess_status_of_not_write {a : Access} {s s' : State} (hread : ∀ w, a.transfer ≠ .write w)
    (h : hostAccess a s = .next s') : s'.status = s.status := by
  obtain rfl | ⟨r, rfl⟩ := hostAccess_transfer h
  · rfl
  · cases ht : a.transfer with
    | read => exact hostRead_status r s
    | write w => exact absurd ht (hread w)

/-- R84, R168: an engine's turn passes or completes a command normally; it never aborts one. -/
theorem engineTurn_status {s s' : State} (h : engineTurn s = .next s') :
    s'.status = s.status ∨ s'.status = s.status.completed := by
  obtain ⟨-, rfl⟩ | ⟨-, i, -, hexec⟩ := engineTurn_cases h
  · exact .inl rfl
  · obtain ⟨t, ht, hstatus, -⟩ := exec_completes i s
    obtain rfl := Host.Outcome.next.inj (hexec.symm.trans ht)
    exact .inr hstatus

/-- What a step can do when no reset is due: a host access that is due, or an engine's turn. -/
theorem step_cases_of_no_reset {s s' : State} (hreset : s.events.head? ≠ some .reset) (h : step s = .next s') :
    ∃ rest, (∃ a, s.events.head? = some (.access a) ∧ hostAccess a { s with events := rest } = .next s') ∨
      engineTurn { s with events := rest } = .next s' := by
  cases he : s.events with
  | nil => exact ⟨s.events, .inr ((step_noEvent he).symm.trans h)⟩
  | cons e rest =>
    rw [step_event he] at h
    cases e with
    | access a => exact ⟨rest, .inl ⟨a, rfl, h⟩⟩
    | engine => exact ⟨rest, .inr h⟩
    | reset => simp [he] at hreset
    | accessDuringReset a => exact nomatch h
    | secondMaster a => exact nomatch h

/-! ### `FATAL` and `ERR = 4` are out of reach (R168) -/

/-- What O54 says of a state: the core is not halted, and no command has been rejected for that. -/
def Unhalted (s : State) : Prop := s.status.fatal = false ∧ s.status.err ≠ 4

theorem Unhalted.raiseError {s : State} (h : Unhalted s) {code : BitVec 3} (hcode : code ≠ 4) :
    Unhalted (raiseError code s) :=
  ⟨h.1, hcode⟩

/-- R163: HALTED is the code of a halted core alone. -/
theorem Unhalted.presentCommand {s : State} (h : Unhalted s) (w : Word) : Unhalted (presentCommand w s) := by
  have hf : s.status.fatal = false := h.1
  cases hb : s.status.busy with
  | true =>
    rw [presentCommand_busy w hf hb]
    exact h.raiseError (by decide)
  | false =>
    cases hl : legal w with
    | true =>
      rw [presentCommand_accept hf hb hl]
      exact ⟨hf, (by decide : errNone ≠ 4)⟩
    | false =>
      rw [presentCommand_illegal hf hb hl]
      exact h.raiseError (by decide)

theorem Unhalted.writeTable {s : State} (h : Unhalted s) (i : Byte) (w : Word) : Unhalted (writeTable i w s) := by
  cases hb : s.status.busy with
  | true =>
    rw [writeTable_busy hb]
    exact h.raiseError (by decide)
  | false =>
    rw [writeTable_idle hb]
    exact h

theorem Unhalted.hostWrite {s : State} (h : Unhalted s) (r : Reg) (w : Word) : Unhalted (hostWrite r w s) := by
  cases r with
  | cmd => exact h.presentCommand w
  | table i => exact h.writeTable i w
  | status | result | id | reserved => exact h

theorem Unhalted.of_status_eq {s s' : State} (h : Unhalted s) (hs : s'.status = s.status) : Unhalted s' := by
  rw [Unhalted, hs]
  exact h

theorem Unhalted.hostAccess {s s' : State} {a : Access} (h : Unhalted s) (ha : hostAccess a s = .next s') :
    Unhalted s' := by
  obtain rfl | ⟨r, rfl⟩ | ⟨r, w, rfl⟩ := hostAccess_cases ha
  · exact h
  · exact h.of_status_eq (hostRead_status r s)
  · exact h.hostWrite r w

theorem Unhalted.engineTurn {s s' : State} (h : Unhalted s) (he : engineTurn s = .next s') : Unhalted s' := by
  obtain hs | hs := engineTurn_status he
  · exact h.of_status_eq hs
  · rw [Unhalted, hs]
    exact h

theorem unhalted_of_reset_status {s : State} (h : s.status = Status.reset) : Unhalted s := by
  rw [Unhalted, h]
  decide

theorem Unhalted.step {s s' : State} (h : Unhalted s) (hstep : step s = .next s') : Unhalted s' := by
  obtain ⟨s0, rfl, hs⟩ := step_cases hstep
  have h0 : Unhalted { s with events := s.events.tail } := h
  obtain ⟨a, ha⟩ | he | rfl := hs
  · exact h0.hostAccess ha
  · exact h0.engineTurn he
  · exact unhalted_of_reset_status rfl

theorem Reachable.unhalted {s : State} (h : Reachable s) : Unhalted s := by
  induction h with
  | start basePage events => exact unhalted_of_reset_status rfl
  | step _ hstep ih => exact ih.step hstep

/-- Settles O54: power-up is unhalted, and so is what a host access, an engine's turn or a reset makes of an unhalted state. -/
theorem fatalIsUnreachable : Obligations.FatalIsUnreachable :=
  ⟨fun _ _ hf he hstep => Unhalted.step ⟨hf, he⟩ hstep, fun _ h => h.unhalted⟩

/-! ### What changes `ERR` (R162) -/

/-- Settles O58: a host access that is no write leaves `STATUS` alone, and completion leaves `ERR` alone. -/
theorem onlyWritesAndResetChangeErr : Obligations.OnlyWritesAndResetChangeErr := by
  intro s s' hreset hwrite hstep
  obtain ⟨rest, ⟨a, hdue, ha⟩ | he⟩ := step_cases_of_no_reset hreset hstep
  · rw [hostAccess_status_of_not_write (fun w => hwrite a w hdue) ha]
  · obtain hs | hs := engineTurn_status he
    · rw [hs]
    · rw [hs, Status.completed_err]

/-! ### The halted state (R166, R167) -/

/-- The states agree on `LASTCMD`, `RESULT` and all of `STATUS` but `ERR`. -/
def SameCommandRegisters (s t : State) : Prop :=
  t.lastcmd = s.lastcmd ∧ t.result = s.result ∧ t.status = { s.status with err := t.status.err }

theorem SameCommandRegisters.refl (s : State) : SameCommandRegisters s s := ⟨rfl, rfl, rfl⟩

theorem sameCommandRegisters_hostRead (r : Reg) (s : State) : SameCommandRegisters s (hostRead r s) := by
  obtain ⟨v, n, hr⟩ := hostRead_eq r s
  rw [hr]
  exact .refl s

/-- R167: a halted core accepts no command; a write records a code, or stores a table entry, or does nothing. -/
theorem sameCommandRegisters_hostWrite {s : State} (hf : s.status.fatal = true) (r : Reg) (w : Word) :
    SameCommandRegisters s (hostWrite r w s) := by
  obtain h | ⟨code, -, h⟩ | ⟨hf', -⟩ | ⟨i, -, h⟩ := hostWrite_cases r w s
  · rw [h]
    exact .refl s
  · rw [h]
    exact ⟨rfl, rfl, rfl⟩
  · simp [hf] at hf'
  · rw [h]
    exact ⟨rfl, rfl, rfl⟩

theorem sameCommandRegisters_hostAccess {s s' : State} {a : Access} (hf : s.status.fatal = true)
    (ha : hostAccess a s = .next s') : SameCommandRegisters s s' := by
  obtain rfl | ⟨r, rfl⟩ | ⟨r, w, rfl⟩ := hostAccess_cases ha
  · exact .refl s'
  · exact sameCommandRegisters_hostRead r s
  · exact sameCommandRegisters_hostWrite hf r w

/-- A step of a halted, idle core that is no reset: the engine has no command to complete. -/
theorem sameCommandRegisters_step {s s' : State} (hf : s.status.fatal = true) (hb : s.status.busy = false)
    (hreset : s.events.head? ≠ some .reset) (hstep : step s = .next s') : SameCommandRegisters s s' := by
  obtain ⟨rest, ⟨a, -, ha⟩ | he⟩ := step_cases_of_no_reset hreset hstep
  · exact sameCommandRegisters_hostAccess (s := { s with events := rest }) hf ha
  · rw [engineTurn_idle (s := { s with events := rest }) hb] at he
    obtain rfl := Host.Outcome.next.inj he
    exact .refl s

theorem StateInv.not_busy_of_fatal {s : State} (h : StateInv s) (hf : s.status.fatal = true) :
    s.status.busy = false :=
  Bool.eq_false_iff.mpr fun hb => by simp [h.busy_not_fatal hb] at hf

/-- Settles O59: by the invariant a halted core is idle, and no step but reset changes its command registers. -/
theorem haltedUntilReset : Obligations.HaltedUntilReset := by
  intro s s' hinv hf hreset hstep
  have hb := hinv.not_busy_of_fatal hf
  obtain ⟨hlast, hresult, hstatus⟩ := sameCommandRegisters_step hf hb hreset hstep
  rw [hstatus]
  exact ⟨hf, hb, hlast, hresult⟩

/-- Settles O32: a completion step whose self-check failed is the abort of R166. -/
theorem failedSelfCheckAborts : Obligations.FailedSelfCheckAborts :=
  fun _ s hfail => completeCommand_abort s hfail

end Sys2Proof.Machine
end

section
/-! PROOFS. O21 and O22, what a `STATUS` read tells after a `CMD` write (R189) and what a reset leaves (R180, R182). -/

namespace Sys2Proof.Machine

/-! ### Reset (R180, R182) -/

theorem step_reset {s : State} {rest : List Event} (he : s.events = .reset :: rest) :
    step s = .next (applyReset { s with events := rest }) :=
  step_event he

/-- Settles O22: a reset that is due is the next step, whatever the state is. -/
theorem resetStepLeavesTheResetState : Obligations.ResetStepLeavesTheResetState :=
  fun _ _ he => ⟨_, step_reset he, applyReset_lastcmd _, applyReset_status _, applyReset_result _, fun _ => rfl⟩

/-! ### Turns of the engine between two accesses of the host (R83, R84) -/

/-- The host has read nothing between the two states, and they agree on `ERR` and `LASTCMD`. -/
def SameReport (s t : State) : Prop :=
  t.status.err = s.status.err ∧ t.lastcmd = s.lastcmd ∧ t.readLog = s.readLog

theorem SameReport.refl (s : State) : SameReport s s := ⟨rfl, rfl, rfl⟩

theorem SameReport.trans {s t u : State} (hst : SameReport s t) (htu : SameReport t u) : SameReport s u := by
  obtain ⟨herr, hlast, hlog⟩ := hst
  obtain ⟨herr', hlast', hlog'⟩ := htu
  exact ⟨herr'.trans herr, hlast'.trans hlast, hlog'.trans hlog⟩

/-- Completion writes neither `ERR` nor `LASTCMD` (R84, R162). -/
theorem sameReport_engineTurn {s s' : State} (h : engineTurn s = .next s') : SameReport s s' := by
  obtain ⟨-, rfl⟩ | ⟨-, i, -, hexec⟩ := engineTurn_cases h
  · exact .refl s'
  · obtain ⟨r, s0, hi, hs0, -⟩ := exec_eq i s
    obtain rfl := Host.Outcome.next.inj (hexec.symm.trans hi)
    obtain rfl | rfl := hs0 <;>
      exact ⟨completeCommand_err r _, completeCommand_lastcmd r _, completeCommand_readLog r _⟩

/-- Engine's turns at the front of the events come to the event after them, with the report they began with. -/
theorem exists_steps_engineTurns {s : State} {n : Nat} {rest : List Event} (h : StateInv s)
    (he : s.events = List.replicate n .engine ++ rest) :
    ∃ t, (∀ k, steps (n + k) s = steps k t) ∧ t.events = rest ∧ t.basePage = s.basePage ∧ SameReport s t := by
  induction n generalizing s with
  | zero => exact ⟨s, fun k => by rw [Nat.zero_add], he, rfl, .refl s⟩
  | succ n ih =>
    have he' : s.events = .engine :: (List.replicate n .engine ++ rest) := he
    obtain ⟨s', hs'⟩ := exists_engineTurn (h.with_own_fields s.draws s.readLog (List.replicate n .engine ++ rest))
    have hstep : step s = .next s' := (step_engine he').trans hs'
    obtain ⟨hevents, hpage⟩ := engineTurn_events hs'
    obtain ⟨t, hsteps, hrest, hpage', hreport⟩ := ih (everyStepKeepsTheInvariant s s' h hstep) hevents
    refine ⟨t, fun k => ?_, hrest, hpage'.trans hpage, (sameReport_engineTurn hs').trans hreport⟩
    rw [Nat.add_right_comm, steps_succ_of_next _ hstep, hsteps]

/-! ### The `STATUS` read (R45) -/

/-- Bits 10:8 of `STATUS` are `ERR` (R22). -/
theorem Status.word_errField (st : Status) : st.word.extractLsb' 8 3 = st.err := by
  obtain ⟨b, d, f, e⟩ := st
  revert b d f e
  unfold Status.word
  decide

theorem step_statusRead {s : State} {rest : List Event} (he : s.events = .access (readAt s.basePage 0x004) :: rest) :
    step s = .next (recordRead s.status.word { s with events := rest }) :=
  step_access (off := 0x004) rfl (by decide) he

/-- Turns of the engine and then a `STATUS` read: `ERR` and `LASTCMD` are found as they were. -/
theorem exists_steps_statusRead {s : State} {n : Nat} {rest : List Event} (h : StateInv s)
    (he : s.events = List.replicate n .engine ++ .access (readAt s.basePage 0x004) :: rest) :
    ∃ t v, steps (n + 1) s = .next t ∧ t.readLog = v :: s.readLog ∧
      v.extractLsb' 8 3 = s.status.err ∧ t.lastcmd = s.lastcmd := by
  obtain ⟨u, hsteps, hevents, hpage, herr, hlast, hlog⟩ := exists_steps_engineTurns h he
  rw [← hpage] at hevents
  have hread : steps (n + 1) s = .next (recordRead u.status.word { u with events := rest }) := by
    rw [hsteps, steps_one]
    exact step_statusRead hevents
  exact ⟨_, _, hread, congrArg (u.status.word :: ·) hlog, (Status.word_errField _).trans herr, hlast⟩

/-! ### The report of a `CMD` write (R189) -/

/-- The code of a rejection is not 0 (R161, R163). -/
theorem rejectionCode_ne_zero (st : Status) :
    (if st.fatal = true then 4#3 else if st.busy = true then 2#3 else 1#3) ≠ 0#3 := by
  split_ifs <;> decide

/-- Settles O21: the write leaves `ERR` 0 if it is accepted and else the code of its rejection, which is not 0; the engine's
turns between leave it for the read. -/
theorem statusReadTellsWhetherAccepted : Obligations.StatusReadTellsWhetherAccepted := by
  intro s w n rest h he
  by_cases hacc : s.status.fatal = false ∧ s.status.busy = false ∧ legal w = true
  · obtain ⟨hf, hb, hl⟩ := hacc
    have hstep := legalWriteToIdleCoreIsAccepted s w _ he hf hb hl
    obtain ⟨t, v, hsteps, hlog, herr, hlast⟩ :=
      exists_steps_statusRead (everyStepKeepsTheInvariant _ _ h hstep) rfl
    exact ⟨t, v, (steps_succ_of_next (n + 1) hstep).trans hsteps, hlog, iff_of_true herr ⟨hf, hb, hl⟩, fun _ => hlast,
      fun hne => absurd herr hne⟩
  · have hstep := otherWriteToCmdIsRejected s w _ he hacc
    obtain ⟨t, v, hsteps, hlog, herr, hlast⟩ :=
      exists_steps_statusRead (everyStepKeepsTheInvariant _ _ h hstep) rfl
    have hne : v.extractLsb' 8 3 ≠ 0#3 := herr ▸ rejectionCode_ne_zero s.status
    exact ⟨t, v, (steps_succ_of_next (n + 1) hstep).trans hsteps, hlog, iff_of_false hne hacc, fun h0 => absurd h0 hne,
      fun _ => ⟨hlast, herr⟩⟩

end Sys2Proof.Machine
end

section
/-! PROOFS. O7, the end of a run (R193). Its first part: admitted events come to an end, after which the engine has at most
one command to complete. Its second part: no step looks at the events after the one that is due, so a run goes on alike
with others appended. -/

namespace Sys2Proof.Machine

/-! ### Runs of admitted events -/

/-- The invariant holds and all events to come have a behaviour (R42, R54, R183). -/
structure AdmittedRun (s : State) : Prop where
  inv : StateInv s
  admitted : ∀ e ∈ s.events, e.admitted s.basePage = true

theorem AdmittedRun.step {s s' : State} (h : AdmittedRun s) (hstep : step s = .next s') : AdmittedRun s' := by
  obtain ⟨hevents, hpage⟩ := step_events hstep
  refine ⟨everyStepKeepsTheInvariant s s' h.inv hstep, ?_⟩
  rw [hevents, hpage]
  exact fun e he => h.admitted e (List.mem_of_mem_tail he)

theorem AdmittedRun.exists_step {s : State} (h : AdmittedRun s) : ∃ s', Machine.step s = .next s' :=
  admittedEventsNeverStop s h.inv fun e he => h.admitted e (List.mem_of_mem_head? he)

theorem AdmittedRun.steps {k : Nat} {s u : State} (h : AdmittedRun s) (hk : steps k s = .next u) : AdmittedRun u := by
  induction k generalizing s with
  | zero => exact Host.Outcome.next.inj hk ▸ h
  | succ k ih =>
    obtain ⟨s', hs'⟩ := h.exists_step
    exact ih (h.step hs') ((steps_succ_of_next k hs').symm.trans hk)

/-- Of admitted events only the host's own accesses count as accesses to come. -/
theorem AdmittedRun.busy_or_access {s : State} (h : AdmittedRun s) (hover : runOver s = false) :
    s.status.busy = true ∨ ∃ a, .access a ∈ s.events := by
  cases hb : s.status.busy with
  | true => exact .inl rfl
  | false =>
    have hany : s.events.any Event.isAccess = true := by simpa [runOver, hb] using hover
    obtain ⟨e, he, hacc⟩ := List.any_eq_true.mp hany
    have hadm := h.admitted e he
    cases e with
    | access a => exact .inr ⟨a, he⟩
    | engine | reset => exact absurd hacc (by decide)
    | accessDuringReset a | secondMaster a => exact absurd hadm Bool.false_ne_true

theorem isAccess_eq_false_iff (e : Event) : e.isAccess = false ↔ e = .engine ∨ e = .reset := by
  cases e <;> simp [Event.isAccess]

/-! ### The end of a run -/

/-- No command is in flight after the engine's turn (R83, R84). -/
theorem engineTurn_busy {s s' : State} (h : engineTurn s = .next s') : s'.status.busy = false := by
  obtain ⟨hb, rfl⟩ | ⟨-, i, -, hexec⟩ := engineTurn_cases h
  · exact hb
  · obtain ⟨t, ht, hstatus, -⟩ := exec_completes i s
    obtain rfl := Host.Outcome.next.inj (hexec.symm.trans ht)
    rw [hstatus, Status.completed_busy]

/-- With no event due, the run is over after one step. -/
theorem runOver_of_step_noEvent {s s' : State} (he : s.events = []) (hstep : step s = .next s') : runOver s' = true := by
  have hevents : s'.events = [] := by rw [(step_events hstep).1, he, List.tail_nil]
  have hidle : s'.status.busy = false := engineTurn_busy ((step_noEvent he).symm.trans hstep)
  simp [runOver, hevents, hidle]

/-- Every event takes one step, and the completion that may be owed after the last of them one more (R83). -/
theorem AdmittedRun.exists_runEnd {s : State} (h : AdmittedRun s) : ∃ t, runEnd (s.events.length + 1) s = some t := by
  generalize hev : s.events = events
  induction events generalizing s with
  | nil =>
    cases hover : runOver s with
    | true => exact ⟨s, runEnd_of_over _ hover⟩
    | false =>
      obtain ⟨s', hs'⟩ := h.exists_step
      exact ⟨s', (runEnd_of_next 0 hover hs').trans (runEnd_of_over 0 (runOver_of_step_noEvent hev hs'))⟩
  | cons e rest ih =>
    cases hover : runOver s with
    | true => exact ⟨s, runEnd_of_over _ hover⟩
    | false =>
      obtain ⟨s', hs'⟩ := h.exists_step
      have hevents : s'.events = rest := by rw [(step_events hs').1, hev, List.tail_cons]
      obtain ⟨t, ht⟩ := ih (h.step hs') hevents
      exact ⟨t, (runEnd_of_next _ hover hs').trans ht⟩

/-- What O7 says of a run that ends. -/
theorem AdmittedRun.ends {s : State} (h : AdmittedRun s) :
    ∃ k t, k ≤ s.events.length + 1 ∧ Machine.steps k s = .next t ∧
      t.status.busy = false ∧ (∀ e ∈ t.events, e = .engine ∨ e = .reset) ∧
      (∀ j < k, ∃ u, Machine.steps j s = .next u ∧ (u.status.busy = true ∨ ∃ a, .access a ∈ u.events)) ∧
      runObservation s = some (observe t) := by
  obtain ⟨t, ht⟩ := h.exists_runEnd
  obtain ⟨hover, k, hk, hkt, hbefore⟩ := runEnd_eq_some ht
  obtain ⟨hidle, hevents⟩ := (runOver_iff t).mp hover
  refine ⟨k, t, hk, hkt, hidle, fun e he => (isAccess_eq_false_iff e).mp (hevents e he), fun j hj => ?_, ?_⟩
  · obtain ⟨u, hu, hnot⟩ := hbefore j hj
    exact ⟨u, hu, (h.steps hu).busy_or_access hnot⟩
  · rw [runObservation, ht, Option.map_some]

/-! ### An access and an engine's turn, by their cases -/

/-- An admitted access is the transfer at the register that its offset names (R44). -/
theorem hostAccess_of_offset {a : Access} {s : State} {off : BitVec 12}
    (hoff : windowOffset s.basePage a.addr = some off) (h : admitted a.width off = true) :
    hostAccess a s = .next (accessReg (regAt off) a.transfer s) := by
  simp [hostAccess, hoff, h]

theorem engineTurn_of_fetch {s : State} {i : Instr} (hb : s.status.busy = true) (hi : fetchLatch s = some i) :
    engineTurn s = exec i s := by
  simp [engineTurn, hb, hi]

theorem engineTurn_of_no_command {s : State} (hb : s.status.busy = true) (hi : fetchLatch s = none) :
    engineTurn s = .fault .latchHoldsNoCommand := by
  simp [engineTurn, hb, hi]

/-! ### Events appended after the last -/

/-- The state with more events to come, after those it has. -/
def appendEvents (tail : List Event) (s : State) : State := { s with events := s.events ++ tail }

/-- The outcome with the next state changed. -/
def onNext (f : State → State) : Host.Outcome State Fault Refusal → Host.Outcome State Fault Refusal
  | .next s => .next (f s)
  | .fault r => .fault r
  | .refused r => .refused r

theorem onNext_next (f : State → State) (s : State) : onNext f (.next s) = .next (f s) := rfl

section
variable (tail : List Event)

theorem readTable_appendEvents (i : Byte) (s : State) :
    readTable i (appendEvents tail s) = ((readTable i s).1, appendEvents tail (readTable i s).2) := by
  cases hused : s.status.busy && usesTable s.ifl with
  | true =>
    rw [readTable_free (.inl hused), readTable_free (s := appendEvents tail s) (.inl hused)]
    rfl
  | false =>
    cases hread : Memory.read s.table i.toNat with
    | none =>
      rw [readTable_free (.inr hread), readTable_free (s := appendEvents tail s) (.inr hread)]
      rfl
    | some v => rw [readTable_written hused hread, readTable_written (s := appendEvents tail s) hused hread]

theorem hostRead_appendEvents (r : Reg) (s : State) :
    hostRead r (appendEvents tail s) = appendEvents tail (hostRead r s) := by
  cases r with
  | table i =>
    rw [hostRead, readReg, readTable_appendEvents]
    rfl
  | cmd | status | result | id | reserved => rfl

theorem presentCommand_appendEvents (w : Word) (s : State) :
    presentCommand w (appendEvents tail s) = appendEvents tail (presentCommand w s) := by
  simp only [presentCommand, apply_ite (appendEvents tail)]
  rfl

theorem hostWrite_appendEvents (r : Reg) (w : Word) (s : State) :
    hostWrite r w (appendEvents tail s) = appendEvents tail (hostWrite r w s) := by
  cases r with
  | cmd => exact presentCommand_appendEvents tail w s
  | table i =>
    simp only [hostWrite, writeTable, apply_ite (appendEvents tail)]
    rfl
  | status | result | id | reserved => rfl

theorem accessReg_appendEvents (r : Reg) (t : Transfer) (s : State) :
    accessReg r t (appendEvents tail s) = appendEvents tail (accessReg r t s) := by
  cases t with
  | read => exact hostRead_appendEvents tail r s
  | write w => exact hostWrite_appendEvents tail r w s

theorem hostAccess_appendEvents (a : Access) (s : State) :
    hostAccess a (appendEvents tail s) = onNext (appendEvents tail) (hostAccess a s) := by
  cases hoff : windowOffset s.basePage a.addr with
  | none => rw [hostAccess_of_outside hoff, hostAccess_of_outside (s := appendEvents tail s) hoff, onNext_next]
  | some off =>
    cases hadm : admitted a.width off with
    | false =>
      rw [hostAccess_of_not_admitted hoff hadm, hostAccess_of_not_admitted (s := appendEvents tail s) hoff hadm]
      rfl
    | true =>
      rw [hostAccess_of_offset hoff hadm, hostAccess_of_offset (s := appendEvents tail s) hoff hadm,
        accessReg_appendEvents, onNext_next]

theorem completeCommand_appendEvents (r : CommandResult) (s : State) :
    completeCommand r (appendEvents tail s) = appendEvents tail (completeCommand r s) := by
  simp only [completeCommand, apply_ite (appendEvents tail)]
  rfl

theorem duValue_appendEvents (s : State) :
    duValue (appendEvents tail s) = ((duValue s).1, appendEvents tail (duValue s).2) := by
  have htable : (appendEvents tail s).table = s.table := rfl
  rw [duValue, duValue, htable]
  cases Memory.allWritten s.table <;> rfl

theorem exec_appendEvents (i : Instr) (s : State) :
    exec i (appendEvents tail s) = onNext (appendEvents tail) (exec i s) := by
  cases i with
  | du a b =>
    rw [exec, execDu, duValue_appendEvents, completeCommand_appendEvents]
    rfl
  | nop | mul | invScan | invEea | invFermat | aff | sbox | genScan | genEea | genFermat =>
    exact congrArg Host.Outcome.next (completeCommand_appendEvents tail _ s)

theorem engineTurn_appendEvents (s : State) :
    engineTurn (appendEvents tail s) = onNext (appendEvents tail) (engineTurn s) := by
  cases hb : s.status.busy with
  | false => rw [engineTurn_idle hb, engineTurn_idle (s := appendEvents tail s) hb, onNext_next]
  | true =>
    cases hi : fetchLatch s with
    | none =>
      rw [engineTurn_of_no_command hb hi, engineTurn_of_no_command (s := appendEvents tail s) hb hi]
      rfl
    | some i =>
      rw [engineTurn_of_fetch hb hi, engineTurn_of_fetch (s := appendEvents tail s) hb hi]
      exact exec_appendEvents tail i s

theorem takeEvent_appendEvents (e : Event) (s : State) :
    takeEvent e (appendEvents tail s) = onNext (appendEvents tail) (takeEvent e s) := by
  cases e with
  | access a => exact hostAccess_appendEvents tail a s
  | engine => exact engineTurn_appendEvents tail s
  | reset | accessDuringReset a | secondMaster a => rfl

theorem step_appendEvents {s : State} {e : Event} {rest : List Event} (he : s.events = e :: rest) :
    step (appendEvents tail s) = onNext (appendEvents tail) (step s) := by
  have he' : (appendEvents tail s).events = e :: (rest ++ tail) := by rw [appendEvents, he, List.cons_append]
  rw [step_event he, step_event he']
  exact takeEvent_appendEvents tail e { s with events := rest }

end

/-! ### Runs with turns and resets appended -/

theorem runOver_appendEvents {tail : List Event} (htail : ∀ e ∈ tail, e = .engine ∨ e = .reset) (s : State) :
    runOver (appendEvents tail s) = runOver s := by
  have hnone : tail.any Event.isAccess = false :=
    List.any_eq_false.mpr fun e he => Bool.eq_false_iff.mp ((isAccess_eq_false_iff e).mpr (htail e he))
  simp [runOver, appendEvents, hnone]

/-- A run that goes on over `n + 1` steps takes the first of them. -/
theorem exists_step_of_steps_succ {n : Nat} {s t : State} (h : steps (n + 1) s = .next t) :
    ∃ s', step s = .next s' ∧ steps n s' = .next t := by
  rw [steps] at h
  cases hs : step s with
  | next s' => exact ⟨s', rfl, by simpa only [hs] using h⟩
  | fault r => simp [hs] at h
  | refused r => simp [hs] at h

/-- Both runs end at the same step, whatever number of steps beyond the events is allowed. -/
theorem exists_runEnd_appendEvents {tail : List Event} (htail : ∀ e ∈ tail, e = .engine ∨ e = .reset) {s t : State}
    (ht : steps s.events.length s = .next t) (hidle : t.status.busy = false) :
    ∃ u, ∀ k, runEnd (s.events.length + k) s = some u ∧
      runEnd (s.events.length + k) (appendEvents tail s) = some (appendEvents tail u) := by
  generalize hev : s.events = events at ht
  induction events generalizing s with
  | nil =>
    obtain rfl : s = t := Host.Outcome.next.inj ht
    have hover : runOver s = true := by simp [runOver, hev, hidle]
    exact ⟨s, fun k => ⟨runEnd_of_over _ hover, runEnd_of_over _ ((runOver_appendEvents htail s).trans hover)⟩⟩
  | cons e rest ih =>
    have hsame := runOver_appendEvents htail s
    cases hover : runOver s with
    | true => exact ⟨s, fun k => ⟨runEnd_of_over _ hover, runEnd_of_over _ (hsame.trans hover)⟩⟩
    | false =>
      obtain ⟨s', hs', ht'⟩ := exists_step_of_steps_succ ht
      have hstep : step (appendEvents tail s) = .next (appendEvents tail s') := by
        rw [step_appendEvents tail hev, hs', onNext_next]
      have hevents : s'.events = rest := by rw [(step_events hs').1, hev, List.tail_cons]
      obtain ⟨u, hu⟩ := ih hevents ht'
      refine ⟨u, fun k => ?_⟩
      rw [List.length_cons, Nat.add_right_comm, runEnd_of_next _ hover hs', runEnd_of_next _ (hsame.trans hover) hstep]
      exact hu k

theorem runObservation_appendEvents {tail : List Event} (htail : ∀ e ∈ tail, e = .engine ∨ e = .reset) {s t : State}
    (ht : steps s.events.length s = .next t) (hidle : t.status.busy = false) :
    runObservation (appendEvents tail s) = runObservation s := by
  obtain ⟨u, hu⟩ := exists_runEnd_appendEvents htail ht hidle
  have hlen : (appendEvents tail s).events.length + 1 = s.events.length + (tail.length + 1) := by
    rw [appendEvents, List.length_append, Nat.add_assoc]
  rw [runObservation, runObservation, hlen, (hu (tail.length + 1)).2, (hu 1).1]
  rfl

/-- Settles O7: admitted events lead to an end, and appended turns and resets leave the step at which a run ends. -/
theorem runEndsAtLastAccessWithNothingInFlight : Obligations.RunEndsAtLastAccessWithNothingInFlight :=
  ⟨fun _ hinv hadm => (AdmittedRun.mk hinv hadm).ends,
    fun _ _ _ ht hidle htail => runObservation_appendEvents htail ht hidle⟩

end Sys2Proof.Machine
end
